-- ==== Sys2Proof/Word.lean ====
section
/-! DEFINITION. The word types of the machine (spec 00_scope.md R6, R8, R9): bytes, 16-bit words, the
12-bit immediate address, and the index of a general register. -/

namespace Sys2Proof

/-- 8 bits: a general register, a timer, a byte of memory (R6). -/
abbrev Byte := BitVec 8

/-- 16 bits: an instruction word, I, pc, a stack entry (R6, R56). -/
abbrev Word := BitVec 16

/-- 12 bits: the field `nnn` (R57). -/
abbrev Addr12 := BitVec 12

/-- The index of a general register, V0 to VF: the field `x` or `y` (R20, R57). -/
abbrev Reg := Fin 16

end Sys2Proof
end

