-- ==== Sys2Proof/Syntax.lean ====
section
/-! DEFINITION. The 34 instructions, one constructor per row of spec/opcode_table.json, in the order and with
the names of 30_encoding.md R60. Operands are the fields of R57: `x` and `y` register indexes, `kk` a byte,
`nnn` a 12-bit address, `n` a count (the sprite height of Dxyn, R58). -/

namespace Sys2Proof

inductive Instr where
  /-- 00E0 -/
  | cls
  /-- 00EE -/
  | ret
  /-- 1nnn -/
  | jp (nnn : Addr12)
  /-- 2nnn -/
  | call (nnn : Addr12)
  /-- 3xkk -/
  | seK (x : Reg) (kk : Byte)
  /-- 4xkk -/
  | sneK (x : Reg) (kk : Byte)
  /-- 5xy0 -/
  | seR (x y : Reg)
  /-- 6xkk -/
  | ldK (x : Reg) (kk : Byte)
  /-- 7xkk -/
  | addK (x : Reg) (kk : Byte)
  /-- 8xy0 -/
  | ldR (x y : Reg)
  /-- 8xy1 -/
  | or (x y : Reg)
  /-- 8xy2 -/
  | and (x y : Reg)
  /-- 8xy3 -/
  | xor (x y : Reg)
  /-- 8xy4 -/
  | addR (x y : Reg)
  /-- 8xy5 -/
  | sub (x y : Reg)
  /-- 8xy6; `y` is decoded and not used (R59, R64) -/
  | shr (x y : Reg)
  /-- 8xy7 -/
  | subn (x y : Reg)
  /-- 8xyE; `y` is decoded and not used (R59, R64) -/
  | shl (x y : Reg)
  /-- 9xy0 -/
  | sneR (x y : Reg)
  /-- Annn -/
  | ldI (nnn : Addr12)
  /-- Bnnn -/
  | jpV0 (nnn : Addr12)
  /-- Cxkk -/
  | rnd (x : Reg) (kk : Byte)
  /-- Dxyn; `n` is the sprite height in bytes -/
  | drw (x y : Reg) (n : Nat)
  /-- Ex9E -/
  | skp (x : Reg)
  /-- ExA1 -/
  | sknp (x : Reg)
  /-- Fx07 -/
  | ldVdt (x : Reg)
  /-- Fx0A -/
  | ldVk (x : Reg)
  /-- Fx15 -/
  | ldDtv (x : Reg)
  /-- Fx18 -/
  | ldStv (x : Reg)
  /-- Fx1E -/
  | addI (x : Reg)
  /-- Fx29 -/
  | ldF (x : Reg)
  /-- Fx33 -/
  | ldB (x : Reg)
  /-- Fx55 -/
  | stRegs (x : Reg)
  /-- Fx65 -/
  | ldRegs (x : Reg)
  deriving DecidableEq, Repr

end Sys2Proof
end

