-- ==== Sys2Proof/WellFormed.lean ====
section
/-! DEFINITION. The well-formed instructions: those an instruction word can stand for. Register indexes,
bytes and 12-bit addresses are bounded by their types; the one operand held as a plain number is the sprite
height of Dxyn, "an unsigned count from 0 to 15" (30_encoding.md R58). -/

namespace Sys2Proof

/-- `i` can be encoded: its sprite height, if it has one, fits the 4-bit field `n` (R57, R58). -/
def Instr.wf : Instr → Bool
  | .drw _ _ n => decide (n < 16)
  | .cls | .ret | .jp _ | .call _ | .seK _ _ | .sneK _ _ | .seR _ _ | .ldK _ _ | .addK _ _
  | .ldR _ _ | .or _ _ | .and _ _ | .xor _ _ | .addR _ _ | .sub _ _ | .shr _ _ | .subn _ _ | .shl _ _
  | .sneR _ _ | .ldI _ | .jpV0 _ | .rnd _ _ | .skp _ | .sknp _ | .ldVdt _ | .ldVk _ | .ldDtv _
  | .ldStv _ | .addI _ | .ldF _ | .ldB _ | .stRegs _ | .ldRegs _ => true

end Sys2Proof
end

