-- ==== Sys2Proof/Decode.lean ====
section
/-! DEFINITION. The decoder of spec 30_encoding.md R60 (total on every word and on any bytes), after it the
encoder, and the opcode table both are held against (spec/opcode_table.json). -/

namespace Sys2Proof

/-- The decoder's verdict on a word (R60): one of the 34 instructions, or `Unknown`. -/
inductive Decoded where
  | known (i : Instr)
  | unknown
  deriving DecidableEq, Repr

/-- A list of bytes holds no instruction: too few bytes, or a word the decoder calls `Unknown`. -/
inductive DecodeError where
  | truncated
  | unknownOpcode (w : Word)
  deriving DecidableEq, Repr

/-! ### Fields (R57) -/

/-- A 4-bit field as a register index. -/
def regOfBits (b : BitVec 4) : Reg := ⟨b.toNat, b.isLt⟩

/-- A register index as a 4-bit field. -/
def regBits (r : Reg) : BitVec 4 := BitVec.ofNat 4 r.val

/-- `op`, w[15:12] -/
def fieldOp (w : Word) : BitVec 4 := w.extractLsb' 12 4

/-- `x`, w[11:8] -/
def fieldX (w : Word) : Reg := regOfBits (w.extractLsb' 8 4)

/-- `y`, w[7:4] -/
def fieldY (w : Word) : Reg := regOfBits (w.extractLsb' 4 4)

/-- `n`, w[3:0] -/
def fieldN (w : Word) : BitVec 4 := w.extractLsb' 0 4

/-- `kk`, w[7:0] -/
def fieldKK (w : Word) : Byte := w.extractLsb' 0 8

/-- `nnn`, w[11:0] -/
def fieldNNN (w : Word) : Addr12 := w.extractLsb' 0 12

/-! ### Decoding (R60) -/

/-- Family 0, selected by the whole word. -/
def decodeFamily0 (w : Word) : Decoded :=
  if w = 0x00E0#16 then .known .cls
  else if w = 0x00EE#16 then .known .ret
  else .unknown

/-- Family 5, selected by `n`. -/
def decodeFamily5 (w : Word) : Decoded :=
  if fieldN w = 0x0#4 then .known (.seR (fieldX w) (fieldY w)) else .unknown

/-- Family 8, selected by `n`. -/
def decodeFamily8 (w : Word) : Decoded :=
  match fieldN w with
  | 0x0#4 => .known (.ldR (fieldX w) (fieldY w))
  | 0x1#4 => .known (.or (fieldX w) (fieldY w))
  | 0x2#4 => .known (.and (fieldX w) (fieldY w))
  | 0x3#4 => .known (.xor (fieldX w) (fieldY w))
  | 0x4#4 => .known (.addR (fieldX w) (fieldY w))
  | 0x5#4 => .known (.sub (fieldX w) (fieldY w))
  | 0x6#4 => .known (.shr (fieldX w) (fieldY w))
  | 0x7#4 => .known (.subn (fieldX w) (fieldY w))
  | 0xE#4 => .known (.shl (fieldX w) (fieldY w))
  | _ => .unknown

/-- Family 9, selected by `n`. -/
def decodeFamily9 (w : Word) : Decoded :=
  if fieldN w = 0x0#4 then .known (.sneR (fieldX w) (fieldY w)) else .unknown

/-- Family E, selected by `kk`. -/
def decodeFamilyE (w : Word) : Decoded :=
  match fieldKK w with
  | 0x9E#8 => .known (.skp (fieldX w))
  | 0xA1#8 => .known (.sknp (fieldX w))
  | _ => .unknown

/-- Family F, selected by `kk`. -/
def decodeFamilyF (w : Word) : Decoded :=
  match fieldKK w with
  | 0x07#8 => .known (.ldVdt (fieldX w))
  | 0x0A#8 => .known (.ldVk (fieldX w))
  | 0x15#8 => .known (.ldDtv (fieldX w))
  | 0x18#8 => .known (.ldStv (fieldX w))
  | 0x1E#8 => .known (.addI (fieldX w))
  | 0x29#8 => .known (.ldF (fieldX w))
  | 0x33#8 => .known (.ldB (fieldX w))
  | 0x55#8 => .known (.stRegs (fieldX w))
  | 0x65#8 => .known (.ldRegs (fieldX w))
  | _ => .unknown

/-- `Decode(w)` of R60: "by top nibble then, where needed, by `n` or `kk`". -/
def decode (w : Word) : Decoded :=
  match fieldOp w with
  | 0x0#4 => decodeFamily0 w
  | 0x1#4 => .known (.jp (fieldNNN w))
  | 0x2#4 => .known (.call (fieldNNN w))
  | 0x3#4 => .known (.seK (fieldX w) (fieldKK w))
  | 0x4#4 => .known (.sneK (fieldX w) (fieldKK w))
  | 0x5#4 => decodeFamily5 w
  | 0x6#4 => .known (.ldK (fieldX w) (fieldKK w))
  | 0x7#4 => .known (.addK (fieldX w) (fieldKK w))
  | 0x8#4 => decodeFamily8 w
  | 0x9#4 => decodeFamily9 w
  | 0xA#4 => .known (.ldI (fieldNNN w))
  | 0xB#4 => .known (.jpV0 (fieldNNN w))
  | 0xC#4 => .known (.rnd (fieldX w) (fieldKK w))
  | 0xD#4 => .known (.drw (fieldX w) (fieldY w) (fieldN w).toNat)
  | 0xE#4 => decodeFamilyE w
  | _ => decodeFamilyF w

/-- The instruction word two bytes make, "high byte at PC, low byte at PC+1" (20_memory.md R45). -/
def wordOfBytes (hi lo : Byte) : Word := hi ++ lo

/-- The first instruction of a list of bytes, and the bytes after it. Every instruction is two bytes long (R56). -/
def decodeBytes : List Byte → Except DecodeError (Instr × List Byte)
  | hi :: lo :: rest =>
    match decode (wordOfBytes hi lo) with
    | .known i => .ok (i, rest)
    | .unknown => .error (.unknownOpcode (wordOfBytes hi lo))
  | [_] => .error .truncated
  | [] => .error .truncated

/-! ### Encoding: the words of the instructions, from the encodings of spec/opcode_table.json -/

/-- Layout NNN of R59. -/
def wordNNN (op : BitVec 4) (nnn : Addr12) : Word := op ++ nnn

/-- Layouts XKK and XSUB of R59. -/
def wordXKK (op : BitVec 4) (x : Reg) (kk : Byte) : Word := (op ++ regBits x) ++ kk

/-- Layout XYN of R59. -/
def wordXYN (op : BitVec 4) (x y : Reg) (n : BitVec 4) : Word := ((op ++ regBits x) ++ regBits y) ++ n

/-- The word of an instruction. -/
def encode : Instr → Word
  | .cls => 0x00E0#16
  | .ret => 0x00EE#16
  | .jp nnn => wordNNN 0x1#4 nnn
  | .call nnn => wordNNN 0x2#4 nnn
  | .seK x kk => wordXKK 0x3#4 x kk
  | .sneK x kk => wordXKK 0x4#4 x kk
  | .seR x y => wordXYN 0x5#4 x y 0x0#4
  | .ldK x kk => wordXKK 0x6#4 x kk
  | .addK x kk => wordXKK 0x7#4 x kk
  | .ldR x y => wordXYN 0x8#4 x y 0x0#4
  | .or x y => wordXYN 0x8#4 x y 0x1#4
  | .and x y => wordXYN 0x8#4 x y 0x2#4
  | .xor x y => wordXYN 0x8#4 x y 0x3#4
  | .addR x y => wordXYN 0x8#4 x y 0x4#4
  | .sub x y => wordXYN 0x8#4 x y 0x5#4
  | .shr x y => wordXYN 0x8#4 x y 0x6#4
  | .subn x y => wordXYN 0x8#4 x y 0x7#4
  | .shl x y => wordXYN 0x8#4 x y 0xE#4
  | .sneR x y => wordXYN 0x9#4 x y 0x0#4
  | .ldI nnn => wordNNN 0xA#4 nnn
  | .jpV0 nnn => wordNNN 0xB#4 nnn
  | .rnd x kk => wordXKK 0xC#4 x kk
  | .drw x y n => wordXYN 0xD#4 x y (BitVec.ofNat 4 n)
  | .skp x => wordXKK 0xE#4 x 0x9E#8
  | .sknp x => wordXKK 0xE#4 x 0xA1#8
  | .ldVdt x => wordXKK 0xF#4 x 0x07#8
  | .ldVk x => wordXKK 0xF#4 x 0x0A#8
  | .ldDtv x => wordXKK 0xF#4 x 0x15#8
  | .ldStv x => wordXKK 0xF#4 x 0x18#8
  | .addI x => wordXKK 0xF#4 x 0x1E#8
  | .ldF x => wordXKK 0xF#4 x 0x29#8
  | .ldB x => wordXKK 0xF#4 x 0x33#8
  | .stRegs x => wordXKK 0xF#4 x 0x55#8
  | .ldRegs x => wordXKK 0xF#4 x 0x65#8

/-- The two bytes of a word as memory holds them, the high byte first (20_memory.md R45). -/
def bytesOfWord (w : Word) : List Byte := [w.extractLsb' 8 8, w.extractLsb' 0 8]

/-! ### The opcode table -/

/-- One row of spec/opcode_table.json: a word is the row's instruction exactly when `w & mask = pattern`
(the table's "match"). -/
structure OpcodeRow where
  mnemonic : String
  pattern : Word
  mask : Word
  deriving DecidableEq, Repr

/-- Rows 1 to 9 of spec/opcode_table.json. -/
def opcodeRowsA : List OpcodeRow :=
  [⟨"00E0", 0x00E0#16, 0xFFFF#16⟩,
   ⟨"00EE", 0x00EE#16, 0xFFFF#16⟩,
   ⟨"1nnn", 0x1000#16, 0xF000#16⟩,
   ⟨"2nnn", 0x2000#16, 0xF000#16⟩,
   ⟨"3xkk", 0x3000#16, 0xF000#16⟩,
   ⟨"4xkk", 0x4000#16, 0xF000#16⟩,
   ⟨"5xy0", 0x5000#16, 0xF00F#16⟩,
   ⟨"6xkk", 0x6000#16, 0xF000#16⟩,
   ⟨"7xkk", 0x7000#16, 0xF000#16⟩]

/-- Rows 10 to 18 of spec/opcode_table.json. -/
def opcodeRowsB : List OpcodeRow :=
  [⟨"8xy0", 0x8000#16, 0xF00F#16⟩,
   ⟨"8xy1", 0x8001#16, 0xF00F#16⟩,
   ⟨"8xy2", 0x8002#16, 0xF00F#16⟩,
   ⟨"8xy3", 0x8003#16, 0xF00F#16⟩,
   ⟨"8xy4", 0x8004#16, 0xF00F#16⟩,
   ⟨"8xy5", 0x8005#16, 0xF00F#16⟩,
   ⟨"8xy6", 0x8006#16, 0xF00F#16⟩,
   ⟨"8xy7", 0x8007#16, 0xF00F#16⟩,
   ⟨"8xyE", 0x800E#16, 0xF00F#16⟩]

/-- Rows 19 to 27 of spec/opcode_table.json. -/
def opcodeRowsC : List OpcodeRow :=
  [⟨"9xy0", 0x9000#16, 0xF00F#16⟩,
   ⟨"Annn", 0xA000#16, 0xF000#16⟩,
   ⟨"Bnnn", 0xB000#16, 0xF000#16⟩,
   ⟨"Cxkk", 0xC000#16, 0xF000#16⟩,
   ⟨"Dxyn", 0xD000#16, 0xF000#16⟩,
   ⟨"Ex9E", 0xE09E#16, 0xF0FF#16⟩,
   ⟨"ExA1", 0xE0A1#16, 0xF0FF#16⟩,
   ⟨"Fx07", 0xF007#16, 0xF0FF#16⟩,
   ⟨"Fx0A", 0xF00A#16, 0xF0FF#16⟩]

/-- Rows 28 to 34 of spec/opcode_table.json. -/
def opcodeRowsD : List OpcodeRow :=
  [⟨"Fx15", 0xF015#16, 0xF0FF#16⟩,
   ⟨"Fx18", 0xF018#16, 0xF0FF#16⟩,
   ⟨"Fx1E", 0xF01E#16, 0xF0FF#16⟩,
   ⟨"Fx29", 0xF029#16, 0xF0FF#16⟩,
   ⟨"Fx33", 0xF033#16, 0xF0FF#16⟩,
   ⟨"Fx55", 0xF055#16, 0xF0FF#16⟩,
   ⟨"Fx65", 0xF065#16, 0xF0FF#16⟩]

/-- spec/opcode_table.json, row by row and in its order: mnemonic, match, mask. -/
def opcodeTable : List OpcodeRow :=
  opcodeRowsA ++ opcodeRowsB ++ opcodeRowsC ++ opcodeRowsD

/-- The mnemonic of an instruction's row, letter for letter as spec/opcode_table.json has it. -/
def Instr.mnemonic : Instr → String
  | .cls => "00E0"
  | .ret => "00EE"
  | .jp _ => "1nnn"
  | .call _ => "2nnn"
  | .seK _ _ => "3xkk"
  | .sneK _ _ => "4xkk"
  | .seR _ _ => "5xy0"
  | .ldK _ _ => "6xkk"
  | .addK _ _ => "7xkk"
  | .ldR _ _ => "8xy0"
  | .or _ _ => "8xy1"
  | .and _ _ => "8xy2"
  | .xor _ _ => "8xy3"
  | .addR _ _ => "8xy4"
  | .sub _ _ => "8xy5"
  | .shr _ _ => "8xy6"
  | .subn _ _ => "8xy7"
  | .shl _ _ => "8xyE"
  | .sneR _ _ => "9xy0"
  | .ldI _ => "Annn"
  | .jpV0 _ => "Bnnn"
  | .rnd _ _ => "Cxkk"
  | .drw _ _ _ => "Dxyn"
  | .skp _ => "Ex9E"
  | .sknp _ => "ExA1"
  | .ldVdt _ => "Fx07"
  | .ldVk _ => "Fx0A"
  | .ldDtv _ => "Fx15"
  | .ldStv _ => "Fx18"
  | .addI _ => "Fx1E"
  | .ldF _ => "Fx29"
  | .ldB _ => "Fx33"
  | .stRegs _ => "Fx55"
  | .ldRegs _ => "Fx65"

/-! ### The host's view of the decoder -/

/-- The bytes of an instruction given as a number whose bit 0 is the least significant bit of its one 16-bit
word, of which the low `nbits` bits are given and the rest are 0. -/
def tableBytes (nbits w : Nat) : List Byte := bytesOfWord (BitVec.ofNat 16 (w % 2 ^ nbits))

/-- The instruction the decoder reads from a row's word. -/
def decodeTableWord (nbits w : Nat) : Option Instr :=
  match decodeBytes (tableBytes nbits w) with
  | .ok (i, _) => some i
  | .error _ => none

end Sys2Proof
end

