-- ==== Sys2Proof/Config.lean ====
section
/-! DEFINITION. What an implementation fixes (the parameters of spec 00_scope.md R7) and the free values of
the machine (the draws of R16). The parameters are a record that every state carries and nothing writes
(log entry 1); the draws are opaque functions of the state's draw counter (log entries 5 and 6). -/

namespace Sys2Proof

/-- The order in which 8xy4, 8xy5, 8xy6, 8xy7 and 8xyE write VF and V[x] (R7, R88). It matters only for x = 15. -/
inductive FlagWriteOrder where
  | flagThenResult
  | resultThenFlag
  deriving DecidableEq, Repr

/-- What `tick()` does to the timers of a halted machine (R7, R130). -/
inductive TickWhenHalted where
  | decrement
  | ignore
  deriving DecidableEq, Repr

/-- The open parameters of R7. FONT_BASE is bounded so that the 80 font bytes lie below 0x200:
`FONT_BASE + 80 <= 0x200`, that is, at most 0x1B0 (R7, R40, R105). -/
structure Config where
  /-- FONT_BASE -/
  fontBase : Fin 0x1B1
  /-- FONT_DATA: 16 glyphs of 5 bytes, glyph d at offset 5·d (R42) -/
  fontData : Vector Byte 80
  /-- FLAG_WRITE_ORDER -/
  flagWriteOrder : FlagWriteOrder
  /-- TICK_WHEN_HALTED -/
  tickWhenHalted : TickWhenHalted
  deriving DecidableEq, Repr

/-- The draw `rnd` of the k-th draw taken by the machine: any byte (R16, R101). A free value. -/
opaque Config.rndByte : Nat → Byte

/-- The draw that picks a key at the k-th draw taken by the machine (R16, R113). A free value: the meaning of
Fx0A reduces it to a position in the list of the pressed keys, which is all the spec says of it. -/
opaque Config.keyPick : Nat → Nat

end Sys2Proof
end

