-- ==== Sys2Proof/Machine/Defaults.lean ====
section
/-! DEFINITION. The spec's default for each parameter of 00_scope.md R7, and what a byte of memory holds after
reset (20_memory.md R40): the font at FONT_BASE, 0 elsewhere. -/

namespace Sys2Proof.Machine

/-- Glyphs 0 to 7 of the default FONT_DATA (R42). PRESUMED by the spec from general knowledge (log entry 2). -/
def glyphs0to7 : List Byte :=
  [0xF0, 0x90, 0x90, 0x90, 0xF0] ++ [0x20, 0x60, 0x20, 0x20, 0x70] ++
  [0xF0, 0x10, 0xF0, 0x80, 0xF0] ++ [0xF0, 0x10, 0xF0, 0x10, 0xF0] ++
  [0x90, 0x90, 0xF0, 0x10, 0x10] ++ [0xF0, 0x80, 0xF0, 0x10, 0xF0] ++
  [0xF0, 0x80, 0xF0, 0x90, 0xF0] ++ [0xF0, 0x10, 0x20, 0x40, 0x40]

/-- Glyphs 8 to F of the default FONT_DATA (R42). PRESUMED by the spec from general knowledge (log entry 2). -/
def glyphs8toF : List Byte :=
  [0xF0, 0x90, 0xF0, 0x90, 0xF0] ++ [0xF0, 0x90, 0xF0, 0x10, 0xF0] ++
  [0xF0, 0x90, 0xF0, 0x90, 0x90] ++ [0xE0, 0x90, 0xE0, 0x90, 0xE0] ++
  [0xF0, 0x80, 0x80, 0x80, 0xF0] ++ [0xE0, 0x90, 0x90, 0x90, 0xE0] ++
  [0xF0, 0x80, 0xF0, 0x80, 0xF0] ++ [0xF0, 0x80, 0xF0, 0x80, 0x80]

/-- The default FONT_DATA of R42. -/
def defaultFont : Vector Byte 80 := ⟨(glyphs0to7 ++ glyphs8toF).toArray, by decide⟩

/-- The defaults of R7: FONT_BASE 0x050, the font of R42, `flag_then_result`, `decrement`. -/
def defaultConfig : Config where
  fontBase := ⟨0x050, by decide⟩
  fontData := defaultFont
  flagWriteOrder := .flagThenResult
  tickWhenHalted := .decrement

/-- What M[a] holds after `reset()` (R37, R40): FONT_DATA[k] at FONT_BASE + k for k = 0 to 79, and 0 at every
other address. It is also what an address reads as that a memory list does not list. -/
def resetByte (c : Config) (a : Nat) : Byte :=
  if h : c.fontBase.val ≤ a ∧ a < c.fontBase.val + 80 then
    c.fontData[a - c.fontBase.val]'(by omega)
  else 0

end Sys2Proof.Machine
end

