-- ==== Sys2Proof/Machine/State.lean ====
section
/-! DEFINITION. The state of the machine (spec 10_state.md), the fault record it can hold (60_exceptions.md
R117, R119), the two ways a step can stop, and the state after `reset()` (R37, R143). -/

namespace Sys2Proof.Machine

/-- The display buffer: `Disp[c][r]` is the pixel at column c (0 to 63) and row r (0 to 31) (R30). -/
abbrev Display := Vector (Vector Bool 32) 64

/-- The memory M (R35): the bytes that differ from their reset contents, by strictly rising address (log entry 8). -/
abbrev Memory := List Host.Cell

/-- The six fault kinds of R117. -/
inductive FaultKind where
  /-- code 1: the fetched word is not one of the 34 instructions -/
  | unknownOpcode
  /-- code 2: a call with 16 entries already on the stack -/
  | stackOverflow
  /-- code 3: a return with an empty stack -/
  | stackUnderflow
  /-- code 4: a fetch or data access at an address >= 0x1000 -/
  | addressOutOfRange
  /-- code 5: a fetch with odd pc -/
  | misalignedFetch
  /-- code 6: a key skip with V[x] >= 16 -/
  | keyIndexOutOfRange
  deriving DecidableEq, Repr

/-- The fault record of R119. -/
structure FaultRecord where
  kind : FaultKind
  /-- pc0: the address of the instruction whose step faulted -/
  pc : Word
  /-- the instruction word; none for a fetch fault -/
  word : Option Word
  /-- the smallest failing address, or the key index; otherwise none -/
  addr : Option Nat
  deriving DecidableEq, Repr

/-- Every piece of state the spec gives the machine, and two fields of the model's own (`cfg`, `draws`). -/
structure State where
  /-- V0 to VF (R20); V[15] is VF, the flag register (R22) -/
  v : Vector Byte 16
  /-- I, the index register (R24) -/
  idx : Word
  /-- the program counter (R25) -/
  pc : Word
  /-- S[0] to S[15], the entries of the call stack (R26) -/
  stack : Vector Word 16
  /-- SP, the number of live entries, 0 to 16 (R26) -/
  sp : Fin 17
  /-- DT, the delay timer (R28) -/
  dt : Byte
  /-- ST, the sound timer (R29) -/
  st : Byte
  /-- Disp, the display buffer (R30) -/
  disp : Display
  /-- K[0] to K[15], the keypad (R31) -/
  keys : Vector Bool 16
  /-- the redraw flag (R32) -/
  redraw : Bool
  /-- the halt status: none, or the record of the fault that halted the machine (R33) -/
  halt : Option FaultRecord
  /-- M, the memory (R35) -/
  mem : Memory
  /-- the parameters of R7; nothing writes this field (log entry 1) -/
  cfg : Config
  /-- how many draws of R16 the machine has taken (log entries 5, 6, 7) -/
  draws : Nat
  deriving DecidableEq, Repr

/-- Why a step answers no next state. -/
inductive Fault where
  /-- The machine was already halted: `step()` returns the recorded fault and changes nothing (R123). Raised by
  `step` alone, never by an instruction's meaning. Safe: it is the spec's own behaviour. -/
  | halted (r : FaultRecord)
  deriving DecidableEq, Repr

/-- Why a step gives an instruction no meaning. -/
inductive Refusal where
  /-- The instruction has no meaning in this model yet. Safe: nothing can be proved of it. No arm of `exec`
  answers it: all 34 instructions have their meaning. -/
  | notModelled (mnemonic : String)
  deriving DecidableEq, Repr

/-- What a step or a meaning answers. -/
abbrev Result := Host.Outcome State Fault Refusal

/-- Every field at the value R37 gives for reset, under the parameters `c`, with the draw counter at `d`. -/
def State.resetWith (c : Config) (d : Nat) : State where
  v := Vector.replicate 16 0
  idx := 0
  pc := 0x200
  stack := Vector.replicate 16 0
  sp := 0
  dt := 0
  st := 0
  disp := Vector.replicate 64 (Vector.replicate 32 false)
  keys := Vector.replicate 16 false
  redraw := false
  halt := none
  mem := []
  cfg := c
  draws := d

/-- The machine right after reset (R37, R143), with the spec's default parameters (R7) and no draw taken. -/
def State.reset : State := State.resetWith defaultConfig 0

end Sys2Proof.Machine
end

