-- ==== Sys2Proof/Machine/Ops.lean ====
section
/-! DEFINITION. The named operations the meanings share: registers, memory and its range check, the stack,
the program counter, raising a fault (the machine's one trap entry, 60_exceptions.md R121, R124), and the
fetch (20_memory.md R46). There is no return from a fault but `reset()` (R125). -/

namespace Sys2Proof.Machine

/-! ### General registers (R11, R20) -/

/-- `V[x]` -/
def State.reg (s : State) (x : Reg) : Byte := s.v[x.val]

/-- `V[x] <- b` -/
def State.setReg (s : State) (x : Reg) (b : Byte) : State := { s with v := s.v.set x.val b }

/-- The index of VF, the flag register (FLAG_REG, R6). -/
abbrev flagReg : Reg := 15

/-! ### The other registers, the display and the draw counter -/

/-- `I <- w` (R24) -/
def State.setIdx (s : State) (w : Word) : State := { s with idx := w }

/-- `DT <- b` (R28) -/
def State.setDt (s : State) (b : Byte) : State := { s with dt := b }

/-- `ST <- b` (R29) -/
def State.setSt (s : State) (b : Byte) : State := { s with st := b }

/-- A write of the display sets the redraw flag with it, whether or not a pixel changes (R32, C11). -/
def State.setDisplay (s : State) (d : Display) : State := { s with disp := d, redraw := true }

/-- One draw has been taken (log entry 5). -/
def State.countDraw (s : State) : State := { s with draws := s.draws + 1 }

/-! ### Memory (R12, R35, R43) -/

/-- M[a]: the listed byte, or the reset contents where the list holds none. -/
def Memory.read (c : Config) : Memory → Nat → Byte
  | [], a => resetByte c a
  | (k, b) :: m, a => if k = a then b else Memory.read c m a

/-- The memory with no entry for `a`: `a` then reads as its reset contents. -/
def Memory.erase (m : Memory) (a : Nat) : Memory := m.filter fun p => p.1 != a

/-- An entry for `a` put at its place by rising address. -/
def Memory.insert : Memory → Nat → Byte → Memory
  | [], a, b => [(a, b)]
  | (k, w) :: m, a, b => if k < a then (k, w) :: Memory.insert m a b else (a, b) :: (k, w) :: m

/-- M[a] <- b, in the canonical form: writing what `a` reads as unlisted removes its entry. -/
def Memory.write (c : Config) (m : Memory) (a : Nat) (b : Byte) : Memory :=
  if b = resetByte c a then Memory.erase m a else Memory.insert (Memory.erase m a) a b

/-- The canonical form of a memory: addresses strictly rising and inside the address space (R39), no entry
equal to what its address reads as unlisted. -/
def Memory.wf (c : Config) (m : Memory) : Bool :=
  decide (m.Pairwise fun p q => p.1 < q.1) && m.all fun p => decide (p.1 < 0x1000) && p.2 != resetByte c p.1

/-- M[a] in a state. Addresses of 0x1000 and above are never asked for: `rangeFault` and `State.fetch` check first. -/
def State.byteAt (s : State) (a : Nat) : Byte := Memory.read s.cfg s.mem a

/-- M[a] <- b in a state. -/
def State.setByte (s : State) (a : Nat) (b : Byte) : State := { s with mem := Memory.write s.cfg s.mem a b }

/-- Bytes `base .. base + n - 1`, in ascending order (R48). -/
def State.loadBytes (s : State) (base n : Nat) : List Byte := (List.range n).map fun k => s.byteAt (base + k)

/-- Write bytes from `base` on, in ascending order (R48). -/
def State.storeBytes (s : State) (base : Nat) : List Byte → State
  | [] => s
  | b :: bs => (s.setByte base b).storeBytes (base + 1) bs

/-- The range check of R43 for the accesses `base .. base + n - 1` (R44: unbounded addresses, no wrap, no mask):
the smallest address that fails, if one does. -/
def rangeFault (base n : Nat) : Option Nat :=
  ((List.range n).map (base + ·)).find? fun a => decide (0x1000 ≤ a)

/-! ### The call stack (R26) -/

/-- `S[k]` -/
def State.stackAt (s : State) (k : Fin 16) : Word := s.stack[k.val]

/-- The entries and SP together. -/
def State.setStack (s : State) (entries : Vector Word 16) (n : Fin 17) : State := { s with stack := entries, sp := n }

/-- `Push(w)`; none is the overflow. -/
def State.push (s : State) (w : Word) : Option State :=
  if h : s.sp.val < 16 then some (s.setStack (s.stack.set s.sp.val w) ⟨s.sp.val + 1, by omega⟩)
  else none

/-- `Pop()`; none is the underflow. The entry popped keeps its bits: only SP moves. -/
def State.pop (s : State) : Option (Word × State) :=
  if h : 0 < s.sp.val then
    some (s.stack[s.sp.val - 1]'(by omega), s.setStack s.stack ⟨s.sp.val - 1, by omega⟩)
  else none

/-! ### The program counter (R25, R68; all values mod 2^16) -/

/-- `pc <- pc0 + 2`, the default. -/
def State.advance (s : State) : State := { s with pc := s.pc + 2 }

/-- `pc <- pc0 + 4` if the condition holds, else `pc0 + 2`. -/
def State.skipIf (s : State) (b : Bool) : State := { s with pc := s.pc + (if b then 4 else 2) }

/-- An explicit target. -/
def State.jumpTo (s : State) (w : Word) : State := { s with pc := w }

/-! ### Faults (R117 to R124) -/

/-- The numeric code of a kind (R117). -/
def FaultKind.code : FaultKind → Nat
  | .unknownOpcode => 1
  | .stackOverflow => 2
  | .stackUnderflow => 3
  | .addressOutOfRange => 4
  | .misalignedFetch => 5
  | .keyIndexOutOfRange => 6

/-- `raise F(info)`: the halt status takes the record of R119, with pc0 as its pc, and nothing else changes
(R121). The state after the step is a next state, since the spec describes the entry (R124; log entry 3). -/
def State.raise (s : State) (k : FaultKind) (w : Option Word) (addr : Option Nat) : State :=
  { s with halt := some ⟨k, s.pc, w, addr⟩ }

/-- Accesses to `base .. base + n - 1` by the instruction `i`: AddressOutOfRange at the smallest failing
address, or else `go` (R13: every check before any write). -/
def withRange (i : Instr) (base n : Nat) (s : State) (go : State) : Result :=
  match rangeFault base n with
  | some a => .next (s.raise .addressOutOfRange (some (encode i)) (some a))
  | none => .next go

/-! ### Fetch (R46) -/

/-- `Fetch()`: the word at pc, or the fault's kind and its `addr`. The alignment check comes first. -/
def State.fetch (s : State) : Except (FaultKind × Option Nat) Word :=
  if s.pc.toNat % 2 = 1 then .error (.misalignedFetch, none)
  else if 0x1000 ≤ s.pc.toNat + 1 then .error (.addressOutOfRange, some s.pc.toNat)
  else .ok (wordOfBytes (s.byteAt s.pc.toNat) (s.byteAt (s.pc.toNat + 1)))

end Sys2Proof.Machine
end

