-- ==== Sys2Proof/Machine/Operands.lean ====
section
/-! DEFINITION. The operand forms of the instruction set (30_encoding.md R58, 20_memory.md R44): immediates
widened with zeros, the data address I + k, the decimal digits of Fx33, the key index of the key skips, and
the draws of 00_scope.md R16. -/

namespace Sys2Proof.Machine

/-- `zext_16(nnn)` (R58). -/
def zext16 (nnn : Addr12) : Word := nnn.setWidth 16

/-- A byte as a 16-bit value (R10), for Bnnn and Fx1E. -/
def byteToWord (b : Byte) : Word := b.setWidth 16

/-- The base of every data address: I as an unbounded natural number (R12, R44). -/
def State.base (s : State) : Nat := s.idx.toNat

/-- The decimal digits of a byte: hundreds, tens, ones (R106). -/
def decimalDigits (b : Byte) : List Byte :=
  [BitVec.ofNat 8 (b.toNat / 100), BitVec.ofNat 8 (b.toNat / 10 % 10), BitVec.ofNat 8 (b.toNat % 10)]

/-- `V[0]` to `V[x]`, in order, x inclusive (R107). -/
def State.regsUpTo (s : State) (x : Reg) : List Byte := s.v.toList.take (x.val + 1)

/-- `V[k] <- M[I + k]` for k in 0..x, x inclusive; the registers above x keep their values (R108). -/
def State.loadRegs (s : State) (x : Reg) : State :=
  { s with v := Vector.ofFn fun k => if k ≤ x then s.byteAt (s.base + k.val) else s.reg k }

/-- `FONT_BASE + 5 * d`, not masked (R105). -/
def glyphAddr (c : Config) (d : Byte) : Word := BitVec.ofNat 16 (c.fontBase.val + 5 * d.toNat)

/-! ### The keypad (R31) -/

/-- `K[k]` -/
def State.key (s : State) (k : Reg) : Bool := s.keys[k.val]

/-- The key a key skip tests: V[x] is its index; none when V[x] >= 16 (R110). -/
def State.keyAt (s : State) (x : Reg) : Option Bool :=
  if h : (s.reg x).toNat < 16 then some (s.key ⟨(s.reg x).toNat, h⟩) else none

/-- The pressed keys, by rising index. -/
def State.pressedKeys (s : State) : List Reg := (List.finRange 16).filter s.key

/-! ### Draws (R16) -/

/-- `draw rnd : byte`: the byte drawn, and the state with the draw counted (log entry 5). -/
def State.drawRnd (s : State) : Byte × State := (Config.rndByte s.draws, s.countDraw)

/-- `draw keysel : {k | K[k]}`: a pressed key, and the state with the draw counted; none when no key is pressed
(log entry 6). -/
def State.drawKey (s : State) : Option (Reg × State) :=
  match s.pressedKeys with
  | [] => none
  | k :: ks =>
    some ((k :: ks)[Config.keyPick s.draws % (k :: ks).length]'(Nat.mod_lt _ (Nat.succ_pos _)), s.countDraw)

end Sys2Proof.Machine
end

