-- ==== Sys2Proof/Machine/Flags.lean ====
section
/-! DEFINITION. The flag computations of 42_alu.md, each from the exact operands (R87), and the one operation
that writes a flag and a result (R88). -/

namespace Sys2Proof.Machine

/-- A flag value as the byte VF takes: 1 or 0. -/
def flagByte (b : Bool) : Byte := if b then 1 else 0

/-- 8xy4: a carry out of bit 7, from the true sum (R95). -/
def carryFlag (a b : Byte) : Bool := decide (a.toNat + b.toNat > 255)

/-- 8xy5, 8xy7: strictly greater (R96, R98). Equal operands give false. -/
def greaterFlag (a b : Byte) : Bool := decide (a.toNat > b.toNat)

/-- 8xy6: bit 0, the bit about to be shifted out (R97). -/
def lowBit (a : Byte) : Bool := a.getLsbD 0

/-- 8xyE: bit 7 (R99). -/
def highBit (a : Byte) : Bool := a.getLsbD 7

/-- `WriteFR(f, r)` for the destination x, in the order FLAG_WRITE_ORDER gives (R88). -/
def State.writeFR (s : State) (x : Reg) (f : Bool) (r : Byte) : State :=
  match s.cfg.flagWriteOrder with
  | .flagThenResult => (s.setReg flagReg (flagByte f)).setReg x r
  | .resultThenFlag => (s.setReg x r).setReg flagReg (flagByte f)

end Sys2Proof.Machine
end

