-- ==== Sys2Proof/Machine/Alu.lean ====
section
/-! DEFINITION. Register loads and the ALU (42_alu.md): 6xkk, 7xkk, 8xy0 to 8xyE, Cxkk. Results wrap mod 256
(R87, R102); none of these raises a fault. -/

namespace Sys2Proof.Machine

/-- 6xkk (R89). -/
def execLdK (x : Reg) (kk : Byte) (s : State) : Result := .next (s.setReg x kk).advance

/-- 7xkk (R90): no flag. -/
def execAddK (x : Reg) (kk : Byte) (s : State) : Result := .next (s.setReg x (s.reg x + kk)).advance

/-- 8xy0 (R91). -/
def execLdR (x y : Reg) (s : State) : Result := .next (s.setReg x (s.reg y)).advance

/-- 8xy1 (R92). -/
def execOr (x y : Reg) (s : State) : Result := .next (s.setReg x (s.reg x ||| s.reg y)).advance

/-- 8xy2 (R93). -/
def execAnd (x y : Reg) (s : State) : Result := .next (s.setReg x (s.reg x &&& s.reg y)).advance

/-- 8xy3 (R94). -/
def execXor (x y : Reg) (s : State) : Result := .next (s.setReg x (s.reg x ^^^ s.reg y)).advance

/-- 8xy4 (R95). -/
def execAddR (x y : Reg) (s : State) : Result :=
  .next (s.writeFR x (carryFlag (s.reg x) (s.reg y)) (s.reg x + s.reg y)).advance

/-- 8xy5 (R96): VF is the strict comparison V[x] > V[y]. -/
def execSub (x y : Reg) (s : State) : Result :=
  .next (s.writeFR x (greaterFlag (s.reg x) (s.reg y)) (s.reg x - s.reg y)).advance

/-- 8xy6 (R97): shifts V[x]; y is ignored. -/
def execShr (x _y : Reg) (s : State) : Result := .next (s.writeFR x (lowBit (s.reg x)) (s.reg x >>> 1)).advance

/-- 8xy7 (R98): VF is the strict comparison V[y] > V[x]. -/
def execSubn (x y : Reg) (s : State) : Result :=
  .next (s.writeFR x (greaterFlag (s.reg y) (s.reg x)) (s.reg y - s.reg x)).advance

/-- 8xyE (R99): shifts V[x]; y is ignored. -/
def execShl (x _y : Reg) (s : State) : Result := .next (s.writeFR x (highBit (s.reg x)) (s.reg x <<< 1)).advance

/-- Cxkk (R101): a drawn byte AND kk. -/
def execRnd (x : Reg) (kk : Byte) (s : State) : Result :=
  match s.drawRnd with
  | (b, s') => .next (s'.setReg x (b &&& kk)).advance

end Sys2Proof.Machine
end

