-- ==== Sys2Proof/Machine/Control.lean ====
section
/-! DEFINITION. Control transfer (41_control_transfer.md): 00EE, 1nnn, 2nnn, 3xkk, 4xkk, 5xy0, 9xy0, Bnnn. -/

namespace Sys2Proof.Machine

/-- 00EE (R77): pc takes the popped entry, with no +2; StackUnderflow when SP = 0. -/
def execRet (s : State) : Result :=
  match s.pop with
  | some (t, s') => .next (s'.jumpTo t)
  | none => .next (s.raise .stackUnderflow (some (encode .ret)) none)

/-- 1nnn (R78). -/
def execJp (nnn : Addr12) (s : State) : Result := .next (s.jumpTo (zext16 nnn))

/-- 2nnn (R79, C2): pushes pc0 + 2; StackOverflow when SP = 16. -/
def execCall (nnn : Addr12) (s : State) : Result :=
  match s.push (s.pc + 2) with
  | some s' => .next (s'.jumpTo (zext16 nnn))
  | none => .next (s.raise .stackOverflow (some (encode (.call nnn))) none)

/-- 3xkk (R80). -/
def execSeK (x : Reg) (kk : Byte) (s : State) : Result := .next (s.skipIf (s.reg x == kk))

/-- 4xkk (R81). -/
def execSneK (x : Reg) (kk : Byte) (s : State) : Result := .next (s.skipIf (s.reg x != kk))

/-- 5xy0 (R82). -/
def execSeR (x y : Reg) (s : State) : Result := .next (s.skipIf (s.reg x == s.reg y))

/-- 9xy0 (R83). -/
def execSneR (x y : Reg) (s : State) : Result := .next (s.skipIf (s.reg x != s.reg y))

/-- Bnnn (R84): the register is always V[0]; the sum is not masked. -/
def execJpV0 (nnn : Addr12) (s : State) : Result := .next (s.jumpTo (zext16 nnn + byteToWord (s.reg 0)))

end Sys2Proof.Machine
end

