-- ==== Sys2Proof/Machine/Display.lean ====
section
/-! DEFINITION. The sprite XOR compositor (40_display.md R72, R73) and the two instructions that change the
display: 00E0 and Dxyn. -/

namespace Sys2Proof.Machine

/-! ### Pixels (R30) -/

/-- `Disp[c][r]` -/
def Display.pixel (d : Display) (c : Fin 64) (r : Fin 32) : Bool := d[c.val][r.val]

/-- `Disp[c][r] <- b` -/
def Display.setPixel (d : Display) (c : Fin 64) (r : Fin 32) (b : Bool) : Display :=
  d.set c.val (d[c.val].set r.val b)

/-- The display with every pixel 0. -/
def Display.blank : Display := Vector.replicate 64 (Vector.replicate 32 false)

/-- `Disp[c][r]` in a state. -/
def State.pixel (s : State) (c : Fin 64) (r : Fin 32) : Bool := Display.pixel s.disp c r

/-! ### The compositor (R72, R73) -/

/-- The column of offset j from the origin column ox, `(ox + j) mod 64`. -/
def spriteCol (ox : Byte) (j : Nat) : Fin 64 := ⟨(ox.toNat + j) % 64, Nat.mod_lt _ (by decide)⟩

/-- The row of offset i from the origin row oy, `(oy + i) mod 32`. -/
def spriteRow (oy : Byte) (i : Nat) : Fin 32 := ⟨(oy.toNat + i) % 32, Nat.mod_lt _ (by decide)⟩

/-- One set sprite bit: the pixel is inverted, and it is a collision if the pixel was 1. The pair is the
display and the collision so far. -/
def plotBit (acc : Display × Bool) (c : Fin 64) (r : Fin 32) : Display × Bool :=
  (Display.setPixel acc.1 c r (!Display.pixel acc.1 c r), acc.2 || Display.pixel acc.1 c r)

/-- One sprite byte on row r: bit 7 - j lands on column offset j, a 0 bit leaves its pixel alone. -/
def plotByte (ox : Byte) (r : Fin 32) (b : Byte) (acc : Display × Bool) : Display × Bool :=
  (List.range 8).foldl (fun acc j => if b.getLsbD (7 - j) then plotBit acc (spriteCol ox j) r else acc) acc

/-- The sprite bytes from row offset i on. -/
def plotBytes (ox oy : Byte) (i : Nat) : List Byte → Display × Bool → Display × Bool
  | [], acc => acc
  | b :: bs, acc => plotBytes ox oy (i + 1) bs (plotByte ox (spriteRow oy i) b acc)

/-- `Composite(ox, oy, b[0..n-1])`: the new display, and whether a pixel went from 1 to 0. -/
def composite (ox oy : Byte) (bs : List Byte) (d : Display) : Display × Bool := plotBytes ox oy 0 bs (d, false)

/-! ### Instructions -/

/-- 00E0 (R70): every pixel 0, redraw set. -/
def execCls (s : State) : Result := .next (s.setDisplay Display.blank).advance

/-- Dxyn past the range check: the sprite is composed at the old (V[x], V[y]), VF takes the collision, redraw is set (R71). -/
def State.drawSprite (s : State) (x y : Reg) (n : Nat) : State :=
  let out := composite (s.reg x) (s.reg y) (s.loadBytes s.base n) s.disp
  (s.setDisplay out.1).setReg flagReg (flagByte out.2)

/-- Dxyn (R71). -/
def execDrw (x y : Reg) (n : Nat) (s : State) : Result :=
  withRange (.drw x y n) s.base n s (s.drawSprite x y n).advance

end Sys2Proof.Machine
end

