-- ==== Sys2Proof/Machine/IndexMemory.lean ====
section
/-! DEFINITION. The index register and memory transfer (43_index_and_memory.md): Annn, Fx1E, Fx29, Fx33, Fx55,
Fx65. No access changes I (R44). -/

namespace Sys2Proof.Machine

/-- Annn (R103). -/
def execLdI (nnn : Addr12) (s : State) : Result := .next (s.setIdx (zext16 nnn)).advance

/-- Fx1E (R104): mod 2^16, no flag. -/
def execAddI (x : Reg) (s : State) : Result := .next (s.setIdx (s.idx + byteToWord (s.reg x))).advance

/-- Fx29 (R105): the glyph address, not masked. -/
def execLdF (x : Reg) (s : State) : Result := .next (s.setIdx (glyphAddr s.cfg (s.reg x))).advance

/-- Fx33 (R106): hundreds, tens and ones to M[I], M[I+1], M[I+2]. -/
def execLdB (x : Reg) (s : State) : Result :=
  withRange (.ldB x) s.base 3 s (s.storeBytes s.base (decimalDigits (s.reg x))).advance

/-- Fx55 (R107): V[0] to V[x], x inclusive, to M[I] on. -/
def execStRegs (x : Reg) (s : State) : Result :=
  withRange (.stRegs x) s.base (x.val + 1) s (s.storeBytes s.base (s.regsUpTo x)).advance

/-- Fx65 (R108): M[I] on to V[0] to V[x], x inclusive. -/
def execLdRegs (x : Reg) (s : State) : Result :=
  withRange (.ldRegs x) s.base (x.val + 1) s (s.loadRegs x).advance

end Sys2Proof.Machine
end

