-- ==== Sys2Proof/Machine/KeysTimers.lean ====
section
/-! DEFINITION. The keypad and timer instructions (44_keys_and_timers.md): Ex9E, ExA1, Fx07, Fx0A, Fx15, Fx18. -/

namespace Sys2Proof.Machine

/-- Ex9E (R110): skip if key V[x] is pressed; KeyIndexOutOfRange when V[x] >= 16. -/
def execSkp (x : Reg) (s : State) : Result :=
  match s.keyAt x with
  | some p => .next (s.skipIf p)
  | none => .next (s.raise .keyIndexOutOfRange (some (encode (.skp x))) (some (s.reg x).toNat))

/-- ExA1 (R111): skip if key V[x] is not pressed; KeyIndexOutOfRange when V[x] >= 16. -/
def execSknp (x : Reg) (s : State) : Result :=
  match s.keyAt x with
  | some p => .next (s.skipIf !p)
  | none => .next (s.raise .keyIndexOutOfRange (some (encode (.sknp x))) (some (s.reg x).toNat))

/-- Fx07 (R112). -/
def execLdVdt (x : Reg) (s : State) : Result := .next (s.setReg x s.dt).advance

/-- Fx0A (R113, R116): while no key is pressed nothing is written and pc stays pc0 (the outcome `Waiting` of
R69); otherwise V[x] takes the index of a pressed key, a draw. -/
def execLdVk (x : Reg) (s : State) : Result :=
  match s.drawKey with
  | none => .next s
  | some (k, s') => .next (s'.setReg x (BitVec.ofNat 8 k.val)).advance

/-- Fx15 (R114). -/
def execLdDtv (x : Reg) (s : State) : Result := .next (s.setDt (s.reg x)).advance

/-- Fx18 (R115): no beep event. -/
def execLdStv (x : Reg) (s : State) : Result := .next (s.setSt (s.reg x)).advance

end Sys2Proof.Machine
end

