-- ==== Sys2Proof/Machine/Step.lean ====
section
/-! DEFINITION. One step: the `step()` transaction of 30_encoding.md R67 as the host's interface asks for it. -/

namespace Sys2Proof.Machine

/-- `step()` (R67, R122): a halted machine answers its recorded fault; otherwise fetch, decode and execute one
instruction, a fetch or decode fault being taken as a halt. -/
def step (s : State) : Host.Outcome State Fault Refusal :=
  match s.halt with
  | some r => .fault (.halted r)
  | none =>
    match s.fetch with
    | .error (k, a) => .next (s.raise k none a)
    | .ok w =>
      match decode w with
      | .unknown => .next (s.raise .unknownOpcode (some w) none)
      | .known i => exec i s

/-- The state with the instruction whose one 16-bit word is `w` (its low `nbits` bits) stored at pc, high byte
first, so that the next step of a machine that is not halted and whose pc can be fetched from runs it. It
stands for the host's `load` (log entry 10). -/
def State.withFetchWord (s : State) (nbits w : Nat) : State := s.storeBytes s.pc.toNat (tableBytes nbits w)

end Sys2Proof.Machine
end

