-- ==== Sys2Proof/Machine/Transactions.lean ====
section
/-! DEFINITION. The block's interface: the seven atomic transactions of 00_scope.md R5, issued one at a time by
one host (20_memory.md R51, 60_exceptions.md R142), each a function from a state to the state after it and the
response the host gets. `step()` is one of them; the host's interface module sees that one alone (log entry 4). -/

namespace Sys2Proof.Machine

/-- What the host may issue. -/
inductive Transaction where
  | reset
  | load (bytes : List Byte)
  | step
  | tick
  | setKey (index : Nat) (pressed : Bool)
  | display
  | consumeRedrawFlag
  deriving DecidableEq, Repr

/-- What the host gets back (R5, R69, R118). -/
inductive Response where
  /-- `reset()` and `set_key` return nothing. -/
  | nothing
  /-- `Ok`, of `step` and `load` -/
  | ok
  /-- Fx0A found no key pressed (R69) -/
  | waiting
  /-- `Fault(record)` of `step` -/
  | fault (r : FaultRecord)
  /-- The model gives the instruction no meaning: never answered, since every instruction has one. -/
  | refusedStep (r : Refusal)
  /-- `LoadError` (R118, R145) -/
  | loadError
  /-- what `tick` returns (R130) -/
  | beep (b : Bool)
  /-- the caller error of `set_key` (R135) -/
  | refused
  /-- the view of `display` (R136) -/
  | pixels (bytes : List Byte)
  /-- what `consume_redraw_flag` returns (R137) -/
  | redrawFlag (b : Bool)
  deriving DecidableEq, Repr

/-! ### reset and load (70_reset_and_hazards.md) -/

/-- `reset()` (R143): every piece of state takes its reset value; the parameters stay, and the draw counter
goes on, so that a reset does not repeat draws (log entry 7). -/
def State.doReset (s : State) : State := State.resetWith s.cfg s.draws

/-- `load(bytes)` (R145, R146): more than 3584 bytes change nothing and give LoadError. -/
def State.load (s : State) (bytes : List Byte) : State × Response :=
  if bytes.length > 3584 then (s, .loadError) else (s.storeBytes 0x200 bytes, .ok)

/-! ### The timer countdown unit (60_exceptions.md R129 to R131) -/

/-- A timer above 0 drops by exactly 1; a timer at 0 stays (R130). -/
def countDown (t : Byte) : Byte := if t.toNat > 0 then t - 1 else t

/-- The timers of a halted machine stand still under TICK_WHEN_HALTED = ignore (R130). -/
def State.timersFrozen (s : State) : Bool := s.halt.isSome && s.cfg.tickWhenHalted == .ignore

/-- `tick()` (R130): the beep is the fall of ST from 1 to 0 (R131). -/
def State.tick (s : State) : State × Response :=
  if s.timersFrozen then (s, .beep false)
  else ({ s with dt := countDown s.dt, st := countDown s.st }, .beep (s.st == 1))

/-! ### The keypad and the display (60_exceptions.md R134 to R137) -/

/-- `set_key(index, pressed)` (R134); an index outside 0 to 15 is refused and changes nothing (R135). -/
def State.setKey (s : State) (index : Nat) (pressed : Bool) : State × Response :=
  if h : index < 16 then ({ s with keys := s.keys.set index pressed }, .nothing) else (s, .refused)

/-- The pixel at byte k of the host's view: row-major, `k = r * 64 + c` (R136). -/
def State.viewByte (s : State) (k : Nat) : Byte :=
  if s.pixel ⟨k % 64, Nat.mod_lt _ (by decide)⟩ ⟨k / 64 % 32, Nat.mod_lt _ (by decide)⟩ then 1 else 0

/-- The host's view of the display: 2048 bytes (R136). -/
def State.displayView (s : State) : List Byte := (List.range 2048).map s.viewByte

/-- `consume_redraw_flag()` (R137). -/
def State.consumeRedrawFlag (s : State) : State × Response := ({ s with redraw := false }, .redrawFlag s.redraw)

/-! ### step -/

/-- The machine is running and the word at pc is Fx0A while no key is pressed: its step is `Waiting` (R69). -/
def State.isWaiting (s : State) : Bool :=
  s.halt.isNone && s.pressedKeys.isEmpty &&
    match s.fetch with
    | .ok w =>
      match decode w with
      | .known (.ldVk _) => true
      | _ => false
    | .error _ => false

/-- `step()` as the host sees it (R67, R69): the state after it, and `Ok`, `Waiting` or `Fault(record)`. -/
def State.stepTransaction (s : State) : State × Response :=
  match step s with
  | .fault (.halted r) => (s, .fault r)
  | .refused r => (s, .refusedStep r)
  | .next t =>
    match t.halt with
    | some r => (t, .fault r)
    | none => (t, if s.isWaiting then .waiting else .ok)

/-- One transaction. -/
def transact (t : Transaction) (s : State) : State × Response :=
  match t with
  | .reset => (s.doReset, .nothing)
  | .load bytes => s.load bytes
  | .step => s.stepTransaction
  | .tick => s.tick
  | .setKey index pressed => s.setKey index pressed
  | .display => (s, .pixels s.displayView)
  | .consumeRedrawFlag => s.consumeRedrawFlag

/-- A schedule of transactions, in any order and number (R51, R132): the state after the last. -/
def runSchedule : List Transaction → State → State
  | [], s => s
  | t :: ts, s => runSchedule ts (transact t s).1

end Sys2Proof.Machine
end

