-- ==== Sys2Proof/Safety.lean ====
section
/-! DEFINITION. What claims about runs are stated in: the invariant of the machine, the states a host can bring
it to, and the three ends of a run (70_reset_and_hazards.md R149). -/

namespace Sys2Proof.Machine

/-- Every live stack entry is even and at most 0x1000 (10_state.md R38). -/
def State.stackSound (s : State) : Prop :=
  ∀ k : Fin 16, k.val < s.sp.val → (s.stackAt k).toNat % 2 = 0 ∧ (s.stackAt k).toNat ≤ 0x1000

/-- A recorded fault carries the pc it halted at: pc still holds pc0 (60_exceptions.md R119, R121). -/
def State.haltSound (s : State) : Prop := ∀ r : FaultRecord, s.halt = some r → r.pc = s.pc

/-- The invariant of the machine: the live stack entries are as R38 says, pc does not exceed the largest value a rule
can write (R25), a recorded fault carries pc, and the memory list is in its canonical form, which is the model's own
choice (log entry 8) and no rule of the spec. -/
structure State.Inv (s : State) : Prop where
  memory : Memory.wf s.cfg s.mem = true
  stack : s.stackSound
  pc : s.pc.toNat ≤ 0x10FE
  halt : s.haltSound

/-- A state some schedule of transactions produces from a reset state, whatever the parameters and the draws. -/
def State.Reachable (s : State) : Prop :=
  ∃ (c : Config) (d : Nat) (ts : List Transaction), s = runSchedule ts (State.resetWith c d)

/-- R149, faulted: halt is not none. A failure, never a successful end. -/
def State.faulted (s : State) : Prop := s.halt ≠ none

/-- R149, parked: the word at pc is 1nnn with nnn = pc. DESIGN CHOICE (log entry 18): R149's table does not say whether
its ends exclude each other; here a halted machine is not parked, and "the word at pc" is one a step could fetch. -/
def State.parked (s : State) : Prop :=
  s.halt = none ∧ ∃ w nnn, s.fetch = .ok w ∧ decode w = .known (.jp nnn) ∧ zext16 nnn = s.pc

/-- R149, waiting: the word at pc is Fx0A and every key is released. DESIGN CHOICE (log entry 18): R149's table does not
say whether its ends exclude each other; here a halted machine is not waiting, and "the word at pc" is one a step
could fetch. -/
def State.waiting (s : State) : Prop :=
  s.halt = none ∧ (∃ w x, s.fetch = .ok w ∧ decode w = .known (.ldVk x)) ∧ ∀ k, s.key k = false

end Sys2Proof.Machine
end

