-- ==== Sys2Proof/Certificates/Slice0/Obligations.lean ====
section
/-! DEFINITION. The statements about the machine, and the words they are written in. Addresses, values and fields
are natural numbers wherever the spec writes them so (00_scope.md R9), so that a statement does not repeat the
model's own definition. -/

namespace Sys2Proof.Claims

open Sys2Proof.Machine

/-! ### Fields of a word as numbers (30_encoding.md R57) -/

/-- w[11:8] -/
def xOf (w : Word) : Reg := ⟨w.toNat / 0x100 % 0x10, Nat.mod_lt _ (by decide)⟩

/-- w[7:4] -/
def yOf (w : Word) : Reg := ⟨w.toNat / 0x10 % 0x10, Nat.mod_lt _ (by decide)⟩

/-- w[3:0] -/
def nOf (w : Word) : Nat := w.toNat % 0x10

/-- w[7:0] -/
def kkOf (w : Word) : Byte := BitVec.ofNat 8 (w.toNat % 0x100)

/-- w[11:0] -/
def nnnOf (w : Word) : Addr12 := BitVec.ofNat 12 (w.toNat % 0x1000)

/-- A rule's "Encoding: match, mask": every word on the row decodes to the instruction built from its fields. -/
def RowDecodes (pattern mask : Word) (mk : Word → Instr) : Prop :=
  ∀ w : Word, w &&& mask = pattern → decode w = .known (mk w)

/-- The illegal words of R62, family by family. -/
def IllegalWord (w : Word) : Prop :=
  (w.toNat / 0x1000 = 0x0 ∧ w.toNat ≠ 0x00E0 ∧ w.toNat ≠ 0x00EE) ∨
  (w.toNat / 0x1000 = 0x5 ∧ w.toNat % 0x10 ≠ 0) ∨
  (w.toNat / 0x1000 = 0x8 ∧ w.toNat % 0x10 ∈ [0x8, 0x9, 0xA, 0xB, 0xC, 0xD, 0xF]) ∨
  (w.toNat / 0x1000 = 0x9 ∧ w.toNat % 0x10 ≠ 0) ∨
  (w.toNat / 0x1000 = 0xE ∧ w.toNat % 0x100 ∉ [0x9E, 0xA1]) ∨
  (w.toNat / 0x1000 = 0xF ∧ w.toNat % 0x100 ∉ [0x07, 0x0A, 0x15, 0x18, 0x1E, 0x29, 0x33, 0x55, 0x65])

/-- The big-endian word at address a: the byte at a is the high one, `hi * 256 + lo` (R9, R45). -/
def wordAt (s : State) (a : Nat) : Word := BitVec.ofNat 16 ((s.byteAt a).toNat * 0x100 + (s.byteAt (a + 1)).toNat)

/-- The machine is running and its pc can be fetched from (R46, R47). -/
def CanFetch (s : State) : Prop := s.halt = none ∧ s.pc.toNat % 2 = 0 ∧ s.pc.toNat < 0x1000

/-! ### Frames -/

/-- The parts of a state a frame speaks of. The stack is its entries and SP. -/
inductive Part where
  | regs | idx | pc | stack | dt | st | disp | keys | redraw | halt | mem | cfg | draws
  deriving DecidableEq, Repr

/-- `t` differs from `s` at most in the parts named: every register, every stack entry, every pixel, every key and
every byte of memory of a part not named reads as before. -/
def ChangesOnly (ps : List Part) (s t : State) : Prop :=
  (Part.regs ∈ ps ∨ ∀ k, t.reg k = s.reg k) ∧
  (Part.idx ∈ ps ∨ t.idx = s.idx) ∧
  (Part.pc ∈ ps ∨ t.pc = s.pc) ∧
  (Part.stack ∈ ps ∨ (t.sp = s.sp ∧ ∀ k, t.stackAt k = s.stackAt k)) ∧
  (Part.dt ∈ ps ∨ t.dt = s.dt) ∧
  (Part.st ∈ ps ∨ t.st = s.st) ∧
  (Part.disp ∈ ps ∨ ∀ c r, t.pixel c r = s.pixel c r) ∧
  (Part.keys ∈ ps ∨ ∀ k, t.key k = s.key k) ∧
  (Part.redraw ∈ ps ∨ t.redraw = s.redraw) ∧
  (Part.halt ∈ ps ∨ t.halt = s.halt) ∧
  (Part.mem ∈ ps ∨ ∀ a, t.byteAt a = s.byteAt a) ∧
  (Part.cfg ∈ ps ∨ t.cfg = s.cfg) ∧
  (Part.draws ∈ ps ∨ t.draws = s.draws)

/-! ### Shapes of results -/

/-- `i` completes: V[x] takes the value, no other register changes, pc goes on by 2, nothing else changes. -/
def WritesRegister (i : Instr) (s : State) (x : Reg) (value : Nat) : Prop :=
  ∃ t, exec i s = .next t ∧ (t.reg x).toNat = value ∧ (∀ k, k ≠ x → t.reg k = s.reg k) ∧ t.pc = s.pc + 2 ∧
    ChangesOnly [.regs, .pc] s t

/-- `i` completes: VF takes the flag (0 or 1) and V[x] the result. For x = 15 the last write wins: VF ends as the
result under flag_then_result and as the flag under result_then_flag (42_alu.md R88). -/
def WritesFlagAndRegister (i : Instr) (s : State) (x : Reg) (flag : Nat) (result : Int) : Prop :=
  ∃ t, exec i s = .next t ∧
    (x ≠ 15 → ((t.reg x).toNat : Int) = result ∧ (t.reg 15).toNat = flag) ∧
    (x = 15 → s.cfg.flagWriteOrder = .flagThenResult → ((t.reg 15).toNat : Int) = result) ∧
    (x = 15 → s.cfg.flagWriteOrder = .resultThenFlag → (t.reg 15).toNat = flag) ∧
    (∀ k, k ≠ x → k ≠ 15 → t.reg k = s.reg k) ∧ t.pc = s.pc + 2 ∧ ChangesOnly [.regs, .pc] s t

/-- `i` completes by setting pc alone. -/
def SetsPc (i : Instr) (s : State) (pc : Nat) : Prop :=
  ∃ t, exec i s = .next t ∧ t.pc.toNat = pc ∧ ChangesOnly [.pc] s t

/-- `i` completes by skipping (pc + 4) or not (pc + 2), all mod 2^16 (30_encoding.md R68). -/
def Skips (i : Instr) (s : State) (taken : Bool) : Prop :=
  SetsPc i s ((s.pc.toNat + if taken then 4 else 2) % 0x10000)

/-- `i` completes: I takes the value, pc goes on by 2, nothing else changes. -/
def WritesIndex (i : Instr) (s : State) (value : Nat) : Prop :=
  ∃ t, exec i s = .next t ∧ t.idx.toNat = value ∧ t.pc = s.pc + 2 ∧ ChangesOnly [.idx, .pc] s t

/-- `i` raises: the halt status takes the record, nothing else changes (60_exceptions.md R119, R121). -/
def Raises (i : Instr) (s : State) (kind : FaultKind) (addr : Option Nat) : Prop :=
  ∃ t, exec i s = .next t ∧ t.halt = some ⟨kind, s.pc, some (encode i), addr⟩ ∧ ChangesOnly [.halt] s t

/-! ### Sprites (40_display.md R72 to R74) -/

/-- Some set bit of the sprite, at row offset i and column offset j from the origin (ox, oy), lands on pixel (c, r). -/
def SpriteSets (ox oy : Byte) (bs : List Byte) (c : Fin 64) (r : Fin 32) : Prop :=
  ∃ (i j : Nat) (h : i < bs.length), j < 8 ∧ bs[i].getLsbD (7 - j) = true ∧
    c.val = (ox.toNat + j) % 64 ∧ r.val = (oy.toNat + i) % 32

/-- The n sprite bytes in memory at I. -/
def spriteAt (s : State) (n : Nat) : List Byte := (List.range n).map fun i => s.byteAt (s.idx.toNat + i)

/-- n accesses at I .. I + n - 1 all lie in the address space (20_memory.md R43, R44). -/
def InRange (s : State) (n : Nat) : Prop := n = 0 ∨ s.idx.toNat + n ≤ 0x1000

/-! ### Whole-machine tables -/

/-- The instruction's own fault (60_exceptions.md R117, R122 item 5), for the instruction i fetched as the word w. -/
def ownFault (s : State) (w : Word) : Instr → Option FaultRecord
  | .call _ => if s.sp.val = 16 then some ⟨.stackOverflow, s.pc, some w, none⟩ else none
  | .ret => if s.sp.val = 0 then some ⟨.stackUnderflow, s.pc, some w, none⟩ else none
  | .drw _ _ n =>
    if 0 < n ∧ 0x1000 < s.idx.toNat + n then
      some ⟨.addressOutOfRange, s.pc, some w, some (max s.idx.toNat 0x1000)⟩ else none
  | .ldB _ =>
    if 0x1000 ≤ s.idx.toNat + 2 then
      some ⟨.addressOutOfRange, s.pc, some w, some (max s.idx.toNat 0x1000)⟩ else none
  | .stRegs x =>
    if 0x1000 ≤ s.idx.toNat + x.val then
      some ⟨.addressOutOfRange, s.pc, some w, some (max s.idx.toNat 0x1000)⟩ else none
  | .ldRegs x =>
    if 0x1000 ≤ s.idx.toNat + x.val then
      some ⟨.addressOutOfRange, s.pc, some w, some (max s.idx.toNat 0x1000)⟩ else none
  | .skp x =>
    if 16 ≤ (s.reg x).toNat then some ⟨.keyIndexOutOfRange, s.pc, some w, some (s.reg x).toNat⟩ else none
  | .sknp x =>
    if 16 ≤ (s.reg x).toNat then some ⟨.keyIndexOutOfRange, s.pc, some w, some (s.reg x).toNat⟩ else none
  | _ => none

/-- The first fault that applies to a running machine's step, in the order of R122. -/
def firstFault (s : State) : Option FaultRecord :=
  if s.pc.toNat % 2 = 1 then some ⟨.misalignedFetch, s.pc, none, none⟩
  else if 0x1000 ≤ s.pc.toNat then some ⟨.addressOutOfRange, s.pc, none, some s.pc.toNat⟩
  else
    match decode (wordAt s s.pc.toNat) with
    | .unknown => some ⟨.unknownOpcode, s.pc, some (wordAt s s.pc.toNat), none⟩
    | .known i => ownFault s (wordAt s s.pc.toNat) i

/-- The "writes" column of 10_state.md R21. -/
def MayWriteRegister (i : Instr) (k : Reg) : Prop :=
  match i with
  | .ldK x _ | .addK x _ | .ldR x _ | .or x _ | .and x _ | .xor x _ | .rnd x _ | .ldVdt x | .ldVk x => k = x
  | .addR x _ | .sub x _ | .subn x _ | .shr x _ | .shl x _ => k = 15 ∨ k = x
  | .drw _ _ _ => k = 15
  | .ldRegs x => k ≤ x
  | _ => False

/-- The new pc after each instruction that raises nothing (30_encoding.md R68), as a number mod 2^16. -/
def pcAfter (i : Instr) (s : State) : Nat :=
  match i with
  | .jp nnn | .call nnn => nnn.toNat
  | .jpV0 nnn => (nnn.toNat + (s.reg 0).toNat) % 0x10000
  | .ret => if h : 0 < s.sp.val then (s.stackAt ⟨s.sp.val - 1, by omega⟩).toNat else s.pc.toNat
  | .seK x kk => (s.pc.toNat + if s.reg x = kk then 4 else 2) % 0x10000
  | .sneK x kk => (s.pc.toNat + if s.reg x ≠ kk then 4 else 2) % 0x10000
  | .seR x y => (s.pc.toNat + if s.reg x = s.reg y then 4 else 2) % 0x10000
  | .sneR x y => (s.pc.toNat + if s.reg x ≠ s.reg y then 4 else 2) % 0x10000
  | .skp x => (s.pc.toNat + if ∃ k : Reg, k.val = (s.reg x).toNat ∧ s.key k = true then 4 else 2) % 0x10000
  | .sknp x => (s.pc.toNat + if ∃ k : Reg, k.val = (s.reg x).toNat ∧ s.key k = false then 4 else 2) % 0x10000
  | .ldVk _ => if ∃ k, s.key k = true then (s.pc.toNat + 2) % 0x10000 else s.pc.toNat
  | _ => (s.pc.toNat + 2) % 0x10000

/-- The instructions of R88 with the flag and the result each computes from V[x] and V[y] (42_alu.md R95 to R99). The
difference a - b mod 256 is written a + 256 - b mod 256, since these are natural numbers. -/
def flagAndResult (s : State) (x y : Reg) : List (Instr × Nat × Nat) :=
  let a := (s.reg x).toNat
  let b := (s.reg y).toNat
  [(.addR x y, if a + b > 255 then 1 else 0, (a + b) % 256),
   (.sub x y, if a > b then 1 else 0, (a + 256 - b) % 256),
   (.shr x y, a % 2, a / 2),
   (.subn x y, if b > a then 1 else 0, (b + 256 - a) % 256),
   (.shl x y, a / 128, a * 2 % 256)]

/-- Instructions executed one after another. -/
def runInstrs : List Instr → State → Result
  | [], s => .next s
  | i :: is, s =>
    match exec i s with
    | .next t => runInstrs is t
    | .fault r => .fault r
    | .refused r => .refused r

/-- The states agree in everything but the stack entries at SP and above (10_state.md R27). -/
def SameButDeadStack (s t : State) : Prop :=
  t = { s with stack := t.stack } ∧ ∀ k : Fin 16, k.val < s.sp.val → t.stackAt k = s.stackAt k

end Sys2Proof.Claims

open Sys2Proof Sys2Proof.Machine Sys2Proof.Claims

/-! ### Encoding -/

/-- Decoding the word of a well-formed instruction gives it back, at every value of every operand. -/
def Obligations.DecodeEncodeRoundTrip : Prop :=
  ∀ i : Instr, i.wf = true → decode (encode i) = .known i

/-- Encoding what a word decodes to gives the word back: no bit is dropped (R64), and the record of a fault, which
holds `encode i`, holds the word that was fetched (R119). -/
def Obligations.EncodeDecodeRoundTrip : Prop :=
  ∀ (w : Word) (i : Instr), decode w = .known i → i.wf = true ∧ encode i = w

/-- The decoder of R60 and the mask-and-match table of spec/opcode_table.json select the same instruction. -/
def Obligations.DecoderFollowsTheOpcodeTable : Prop :=
  ∀ (w : Word) (r : OpcodeRow), r ∈ opcodeTable →
    (w &&& r.mask = r.pattern ↔ ∃ i, decode w = .known i ∧ i.mnemonic = r.mnemonic)

/-- R63: every word is one of the 34 instructions or illegal, and the illegal ones are those R62 lists. -/
def Obligations.UnknownWordsAreExactlyTheIllegalOnes : Prop :=
  ∀ w : Word, (IllegalWord w ↔ decode w = .unknown) ∧
    (¬ IllegalWord w ↔ ∃ i, decode w = .known i ∧ ∃ r ∈ opcodeTable, r.mnemonic = i.mnemonic) ∧
    opcodeTable.length = 34

/-- A few words written out from the spec's encodings. -/
def Obligations.SampleWordsDecodeAsTheSpecSays : Prop :=
  decode 0x00E0 = .known .cls ∧ decode 0x1ABC = .known (.jp 0xABC) ∧ decode 0x3342 = .known (.seK 3 0x42) ∧
  decode 0x8017 = .known (.subn 0 1) ∧ decode 0xD012 = .known (.drw 0 1 2) ∧ decode 0xE19E = .known (.skp 1) ∧
  decode 0xFA33 = .known (.ldB 10) ∧ decode 0x5231 = .unknown

/-! ### One step -/

/-- A running machine whose pc can be fetched from executes the instruction its word decodes to: `step` adds
nothing around `exec` (the instruction moves pc itself). -/
def Obligations.StepExecutesTheDecodedInstruction : Prop :=
  ∀ (s : State) (i : Instr), CanFetch s → decode (wordAt s s.pc.toNat) = .known i → step s = exec i s

/-- R46: the alignment check, then the range check, then the two bytes, high byte first; a fault of the fetch
records no word. -/
def Obligations.FetchChecksThenReadsTheWord : Prop :=
  ∀ s : State, s.halt = none →
    (s.pc.toNat % 2 = 1 → ∃ t, step s = .next t ∧
      t.halt = some ⟨.misalignedFetch, s.pc, none, none⟩ ∧ ChangesOnly [.halt] s t) ∧
    (s.pc.toNat % 2 = 0 → 0x1000 ≤ s.pc.toNat + 1 → ∃ t, step s = .next t ∧
      t.halt = some ⟨.addressOutOfRange, s.pc, none, some s.pc.toNat⟩ ∧ ChangesOnly [.halt] s t) ∧
    (s.pc.toNat % 2 = 0 → s.pc.toNat + 1 < 0x1000 → s.fetch = .ok (wordAt s s.pc.toNat))

/-- R100, with the illegal words of the other families: a fetched illegal word halts the machine with its word and
its address. -/
def Obligations.IllegalWordHaltsTheMachine : Prop :=
  ∀ s : State, CanFetch s → IllegalWord (wordAt s s.pc.toNat) → ∃ t, step s = .next t ∧
    t.halt = some ⟨.unknownOpcode, s.pc, some (wordAt s s.pc.toNat), none⟩ ∧ ChangesOnly [.halt] s t

/-- R121: a step that raises leaves the state as it was but for the halt status, and pc still holds pc0. -/
def Obligations.FaultingStepIsPrecise : Prop :=
  ∀ (s t : State) (r : FaultRecord), s.halt = none → step s = .next t → t.halt = some r →
    t = { s with halt := some r } ∧ r.pc = s.pc

/-- R122: a halted machine answers its record; a running machine always completes its step, and halts exactly
with the first fault that applies. No step is refused. -/
def Obligations.StepRaisesTheFirstFaultThatApplies : Prop :=
  ∀ s : State, (∀ r, s.halt = some r → step s = .fault (.halted r)) ∧
    (s.halt = none → ∃ t, step s = .next t ∧ t.halt = firstFault s)

/-- R123: the halted state. -/
def Obligations.HaltedMachineStaysHaltedUntilReset : Prop :=
  ∀ (s : State) (r : FaultRecord), s.halt = some r →
    transact .step s = (s, .fault r) ∧ (transact .reset s).1.halt = none ∧
    (∀ tr : Transaction, tr ≠ .reset → (transact tr s).1.halt = some r) ∧
    (s.cfg.tickWhenHalted = .decrement → (transact .tick s).1.dt.toNat = s.dt.toNat - 1) ∧
    (∀ (k : Reg) (p : Bool), (transact (.setKey k.val p) s).1.key k = p) ∧
    transact .display s = (s, .pixels s.displayView) ∧
    (transact .consumeRedrawFlag s).2 = .redrawFlag s.redraw

/-- R69: the outcomes of `step()`. -/
def Obligations.StepOutcomeIsOkWaitingOrFault : Prop :=
  ∀ (s t : State) (o : Response), transact .step s = (t, o) →
    (o = .ok ∧ t.halt = none ∧ ¬ s.waiting) ∨ (o = .waiting ∧ t = s ∧ s.waiting) ∨
    (∃ r, o = .fault r ∧ t.halt = some r ∧ (t = { s with halt := some r }))

/-! ### The display (40_display.md) -/

/-- R70: 00E0. -/
def Obligations.ClearScreenBlanksTheDisplay : Prop :=
  RowDecodes 0x00E0 0xFFFF (fun _ => .cls) ∧
  ∀ s : State, ∃ t, exec .cls s = .next t ∧ (∀ c r, t.pixel c r = false) ∧ t.redraw = true ∧ t.pc = s.pc + 2 ∧
    ChangesOnly [.disp, .redraw, .pc] s t

/-- R74: one draw touches each pixel at most once, so the compositor's loop is the XOR of all bits at once, and
there is a collision exactly when a set sprite bit meets a pixel that was 1 before. -/
def Obligations.CompositorXorsAllBitsAtOnce : Prop :=
  ∀ (ox oy : Byte) (bs : List Byte) (d : Display), bs.length ≤ 15 →
    (∀ i j i' j', i < bs.length → i' < bs.length → j < 8 → j' < 8 →
      spriteCol ox j = spriteCol ox j' → spriteRow oy i = spriteRow oy i' → i = i' ∧ j = j') ∧
    (∀ c r, (SpriteSets ox oy bs c r → Display.pixel (composite ox oy bs d).1 c r = !Display.pixel d c r) ∧
      (¬ SpriteSets ox oy bs c r → Display.pixel (composite ox oy bs d).1 c r = Display.pixel d c r)) ∧
    ((composite ox oy bs d).2 = true ↔ ∃ c r, SpriteSets ox oy bs c r ∧ Display.pixel d c r = true)

/-- R71: Dxyn, with the sprite in memory at I and the origin in the old V[x] and V[y]. -/
def Obligations.DrawXorsTheSpriteAtIntoTheDisplay : Prop :=
  RowDecodes 0xD000 0xF000 (fun w => .drw (xOf w) (yOf w) (nOf w)) ∧
  ∀ (s : State) (x y : Reg) (n : Nat), n ≤ 15 →
    (InRange s n → ∃ t, exec (.drw x y n) s = .next t ∧
      (∀ c r, (SpriteSets (s.reg x) (s.reg y) (spriteAt s n) c r → t.pixel c r = !s.pixel c r) ∧
        (¬ SpriteSets (s.reg x) (s.reg y) (spriteAt s n) c r → t.pixel c r = s.pixel c r)) ∧
      ((∃ c r, SpriteSets (s.reg x) (s.reg y) (spriteAt s n) c r ∧ s.pixel c r = true) → t.reg 15 = 1) ∧
      ((¬ ∃ c r, SpriteSets (s.reg x) (s.reg y) (spriteAt s n) c r ∧ s.pixel c r = true) → t.reg 15 = 0) ∧
      (∀ k, k ≠ 15 → t.reg k = s.reg k) ∧ t.redraw = true ∧ t.pc = s.pc + 2 ∧
      ChangesOnly [.regs, .disp, .redraw, .pc] s t) ∧
    (¬ InRange s n → Raises (.drw x y n) s .addressOutOfRange (some (max s.idx.toNat 0x1000)))

/-- R75: the same sprite drawn again at the same origin, with no other display write between, restores the display,
and the second draw sets VF exactly when some set sprite bit landed on a pixel that was 0. The first draw leaves the
sprite, its range and an origin register other than VF alone, so the very next draw may be the second. -/
def Obligations.DrawingTwiceRestoresTheDisplay : Prop :=
  ∀ (s : State) (x y : Reg) (n : Nat), n ≤ 15 → InRange s n →
    ∃ t, exec (.drw x y n) s = .next t ∧ InRange t n ∧ spriteAt t n = spriteAt s n ∧
      (x ≠ 15 → t.reg x = s.reg x) ∧ (y ≠ 15 → t.reg y = s.reg y) ∧
      ∀ (q : State) (x' y' : Reg), (∀ c r, q.pixel c r = t.pixel c r) → InRange q n → spriteAt q n = spriteAt s n →
        q.reg x' = s.reg x → q.reg y' = s.reg y → ∃ u, exec (.drw x' y' n) q = .next u ∧
          (∀ c r, u.pixel c r = s.pixel c r) ∧
          (u.reg 15 = 1 ↔ ∃ c r, SpriteSets (s.reg x) (s.reg y) (spriteAt s n) c r ∧ s.pixel c r = false)

/-! ### Control transfer (41_control_transfer.md) -/

/-- R77: 00EE. -/
def Obligations.ReturnPopsTheStack : Prop :=
  RowDecodes 0x00EE 0xFFFF (fun _ => .ret) ∧
  ∀ s : State, (s.sp.val = 0 → Raises .ret s .stackUnderflow none) ∧
    ∀ k : Fin 16, s.sp.val = k.val + 1 → ∃ t, exec .ret s = .next t ∧ t.pc = s.stackAt k ∧ t.sp.val = k.val ∧
      (∀ j, t.stackAt j = s.stackAt j) ∧ ChangesOnly [.pc, .stack] s t

/-- R78 and R84: 1nnn and Bnnn; the sum is not masked to 12 bits. -/
def Obligations.JumpsSetThePc : Prop :=
  RowDecodes 0x1000 0xF000 (fun w => .jp (nnnOf w)) ∧ RowDecodes 0xB000 0xF000 (fun w => .jpV0 (nnnOf w)) ∧
  ∀ (s : State) (nnn : Addr12), SetsPc (.jp nnn) s nnn.toNat ∧ SetsPc (.jpV0 nnn) s (nnn.toNat + (s.reg 0).toNat)

/-- R79: 2nnn pushes the address of the next instruction. -/
def Obligations.CallPushesTheNextAddress : Prop :=
  RowDecodes 0x2000 0xF000 (fun w => .call (nnnOf w)) ∧
  ∀ (s : State) (nnn : Addr12), (s.sp.val = 16 → Raises (.call nnn) s .stackOverflow none) ∧
    ∀ k : Fin 16, s.sp.val = k.val → ∃ t, exec (.call nnn) s = .next t ∧ t.pc.toNat = nnn.toNat ∧
      t.stackAt k = s.pc + 2 ∧ t.sp.val = k.val + 1 ∧ (∀ j, j ≠ k → t.stackAt j = s.stackAt j) ∧
      ChangesOnly [.pc, .stack] s t

/-- R80 to R83: the four register skips. -/
def Obligations.ConditionalSkipsCompare : Prop :=
  RowDecodes 0x3000 0xF000 (fun w => .seK (xOf w) (kkOf w)) ∧
  RowDecodes 0x4000 0xF000 (fun w => .sneK (xOf w) (kkOf w)) ∧
  RowDecodes 0x5000 0xF00F (fun w => .seR (xOf w) (yOf w)) ∧
  RowDecodes 0x9000 0xF00F (fun w => .sneR (xOf w) (yOf w)) ∧
  ∀ (s : State) (x y : Reg) (kk : Byte),
    Skips (.seK x kk) s (decide ((s.reg x).toNat = kk.toNat)) ∧
    Skips (.sneK x kk) s (decide ((s.reg x).toNat ≠ kk.toNat)) ∧
    Skips (.seR x y) s (decide ((s.reg x).toNat = (s.reg y).toNat)) ∧
    Skips (.sneR x y) s (decide ((s.reg x).toNat ≠ (s.reg y).toNat))

/-- R86: calls nest to depth 16, and d calls followed by d returns come back behind the first call. -/
def Obligations.NestedCallsReturnBehindTheFirst : Prop :=
  (∀ (s : State) (nnn : Addr12), s.sp.val = 16 → Raises (.call nnn) s .stackOverflow none) ∧
  ∀ (s : State) (targets : List Addr12), s.halt = none → s.sp.val + targets.length ≤ 16 →
    ∃ t, runInstrs (targets.map .call) s = .next t ∧ t.halt = none ∧ t.sp.val = s.sp.val + targets.length ∧
      (targets ≠ [] → ∃ u, runInstrs (List.replicate targets.length .ret) t = .next u ∧ u.halt = none ∧
        u.sp = s.sp ∧ u.pc = s.pc + 2)

/-! ### Register loads and the ALU (42_alu.md) -/

/-- R89 and R90: 6xkk and 7xkk. -/
def Obligations.ImmediateLoadAndAdd : Prop :=
  RowDecodes 0x6000 0xF000 (fun w => .ldK (xOf w) (kkOf w)) ∧
  RowDecodes 0x7000 0xF000 (fun w => .addK (xOf w) (kkOf w)) ∧
  ∀ (s : State) (x : Reg) (kk : Byte), WritesRegister (.ldK x kk) s x kk.toNat ∧
    WritesRegister (.addK x kk) s x (((s.reg x).toNat + kk.toNat) % 256)

/-- R91 to R94: 8xy0, 8xy1, 8xy2, 8xy3. -/
def Obligations.MoveAndLogic : Prop :=
  RowDecodes 0x8000 0xF00F (fun w => .ldR (xOf w) (yOf w)) ∧
  RowDecodes 0x8001 0xF00F (fun w => .or (xOf w) (yOf w)) ∧
  RowDecodes 0x8002 0xF00F (fun w => .and (xOf w) (yOf w)) ∧
  RowDecodes 0x8003 0xF00F (fun w => .xor (xOf w) (yOf w)) ∧
  ∀ (s : State) (x y : Reg), WritesRegister (.ldR x y) s x (s.reg y).toNat ∧
    WritesRegister (.or x y) s x ((s.reg x).toNat ||| (s.reg y).toNat) ∧
    WritesRegister (.and x y) s x ((s.reg x).toNat &&& (s.reg y).toNat) ∧
    WritesRegister (.xor x y) s x ((s.reg x).toNat ^^^ (s.reg y).toNat)

/-- R95: 8xy4, the carry from the true sum. -/
def Obligations.AddSetsTheCarry : Prop :=
  RowDecodes 0x8004 0xF00F (fun w => .addR (xOf w) (yOf w)) ∧
  ∀ (s : State) (x y : Reg), WritesFlagAndRegister (.addR x y) s x
    (if (s.reg x).toNat + (s.reg y).toNat > 255 then 1 else 0)
    (((s.reg x).toNat + (s.reg y).toNat) % 256 : Nat)

/-- R96 and R98: 8xy5 and 8xy7, the strict comparison, and the difference as an integer mod 256. -/
def Obligations.SubtractionsSetTheStrictComparison : Prop :=
  RowDecodes 0x8005 0xF00F (fun w => .sub (xOf w) (yOf w)) ∧
  RowDecodes 0x8007 0xF00F (fun w => .subn (xOf w) (yOf w)) ∧
  ∀ (s : State) (x y : Reg),
    WritesFlagAndRegister (.sub x y) s x (if (s.reg x).toNat > (s.reg y).toNat then 1 else 0)
      ((((s.reg x).toNat : Int) - ((s.reg y).toNat : Int)) % 256) ∧
    WritesFlagAndRegister (.subn x y) s x (if (s.reg y).toNat > (s.reg x).toNat then 1 else 0)
      ((((s.reg y).toNat : Int) - ((s.reg x).toNat : Int)) % 256)

/-- R97 and R99: 8xy6 and 8xyE shift V[x] whatever y is, and VF is the bit shifted out. -/
def Obligations.ShiftsCaptureTheLostBit : Prop :=
  RowDecodes 0x8006 0xF00F (fun w => .shr (xOf w) (yOf w)) ∧
  RowDecodes 0x800E 0xF00F (fun w => .shl (xOf w) (yOf w)) ∧
  ∀ (s : State) (x y : Reg),
    WritesFlagAndRegister (.shr x y) s x ((s.reg x).toNat % 2) ((s.reg x).toNat / 2 : Nat) ∧
    WritesFlagAndRegister (.shl x y) s x ((s.reg x).toNat / 128) ((s.reg x).toNat * 2 % 256 : Nat)

/-- R88: the two write orders of 8xy4 to 8xyE, for the flag f and the result r that R95 to R99 give the instruction.
They agree for x other than 15; for x = 15 VF ends as r under flag_then_result and as f under result_then_flag. -/
def Obligations.WriteOrderMattersOnlyForVF : Prop :=
  ∀ (s : State) (x y : Reg) (i : Instr) (f r : Nat), (i, f, r) ∈ flagAndResult s x y →
    ∃ t u,
      exec i { s with cfg := { s.cfg with flagWriteOrder := .flagThenResult } } = .next t ∧
      exec i { s with cfg := { s.cfg with flagWriteOrder := .resultThenFlag } } = .next u ∧
      (x ≠ 15 → t.v = u.v ∧ (t.reg x).toNat = r ∧ (t.reg 15).toNat = f) ∧
      (x = 15 → (t.reg 15).toNat = r ∧ (u.reg 15).toNat = f) ∧
      (∀ k, k ≠ x → k ≠ 15 → t.reg k = s.reg k ∧ u.reg k = s.reg k) ∧ ChangesOnly [.regs, .cfg] t u

/-- R101: Cxkk, whatever byte is drawn. Bits clear in kk are 0 in the result. The draw counter is the model's own
(log entry 5). -/
def Obligations.RandomByteIsMasked : Prop :=
  RowDecodes 0xC000 0xF000 (fun w => .rnd (xOf w) (kkOf w)) ∧
  ∀ (s : State) (x : Reg) (kk : Byte), ∃ (rnd : Byte) (t : State), exec (.rnd x kk) s = .next t ∧
    t.reg x = rnd &&& kk ∧ (∀ b, kk.getLsbD b = false → (t.reg x).getLsbD b = false) ∧
    (∀ k, k ≠ x → t.reg k = s.reg k) ∧ t.pc = s.pc + 2 ∧ ChangesOnly [.regs, .pc, .draws] s t

/-! ### The index register and memory (43_index_and_memory.md) -/

/-- R103, R104 and R105: Annn, Fx1E and Fx29. -/
def Obligations.IndexIsLoadedAddedToOrPointedAtAGlyph : Prop :=
  RowDecodes 0xA000 0xF000 (fun w => .ldI (nnnOf w)) ∧ RowDecodes 0xF01E 0xF0FF (fun w => .addI (xOf w)) ∧
  RowDecodes 0xF029 0xF0FF (fun w => .ldF (xOf w)) ∧
  ∀ (s : State) (x : Reg) (nnn : Addr12), WritesIndex (.ldI nnn) s nnn.toNat ∧
    WritesIndex (.addI x) s ((s.idx.toNat + (s.reg x).toNat) % 0x10000) ∧
    WritesIndex (.ldF x) s (s.cfg.fontBase.val + 5 * (s.reg x).toNat)

/-- R106: Fx33. -/
def Obligations.DecimalDigitsAreStored : Prop :=
  RowDecodes 0xF033 0xF0FF (fun w => .ldB (xOf w)) ∧
  ∀ (s : State) (x : Reg),
    (s.idx.toNat + 2 < 0x1000 → ∃ t, exec (.ldB x) s = .next t ∧
      (t.byteAt s.idx.toNat).toNat = (s.reg x).toNat / 100 ∧
      (t.byteAt (s.idx.toNat + 1)).toNat = (s.reg x).toNat / 10 % 10 ∧
      (t.byteAt (s.idx.toNat + 2)).toNat = (s.reg x).toNat % 10 ∧
      (∀ a, a < s.idx.toNat ∨ s.idx.toNat + 2 < a → t.byteAt a = s.byteAt a) ∧ t.pc = s.pc + 2 ∧
      ChangesOnly [.mem, .pc] s t) ∧
    (0x1000 ≤ s.idx.toNat + 2 → Raises (.ldB x) s .addressOutOfRange (some (max s.idx.toNat 0x1000)))

/-- R107: Fx55, register x included, I kept. -/
def Obligations.RegistersAreStoredAtI : Prop :=
  RowDecodes 0xF055 0xF0FF (fun w => .stRegs (xOf w)) ∧
  ∀ (s : State) (x : Reg),
    (s.idx.toNat + x.val < 0x1000 → ∃ t, exec (.stRegs x) s = .next t ∧
      (∀ k : Reg, k ≤ x → t.byteAt (s.idx.toNat + k.val) = s.reg k) ∧
      (∀ a, a < s.idx.toNat ∨ s.idx.toNat + x.val < a → t.byteAt a = s.byteAt a) ∧ t.pc = s.pc + 2 ∧
      ChangesOnly [.mem, .pc] s t) ∧
    (0x1000 ≤ s.idx.toNat + x.val → Raises (.stRegs x) s .addressOutOfRange (some (max s.idx.toNat 0x1000)))

/-- R108: Fx65, register x included, the registers above x and I kept. -/
def Obligations.RegistersAreLoadedFromI : Prop :=
  RowDecodes 0xF065 0xF0FF (fun w => .ldRegs (xOf w)) ∧
  ∀ (s : State) (x : Reg),
    (s.idx.toNat + x.val < 0x1000 → ∃ t, exec (.ldRegs x) s = .next t ∧
      (∀ k : Reg, k ≤ x → t.reg k = s.byteAt (s.idx.toNat + k.val)) ∧
      (∀ k : Reg, x < k → t.reg k = s.reg k) ∧ t.pc = s.pc + 2 ∧ ChangesOnly [.regs, .pc] s t) ∧
    (0x1000 ≤ s.idx.toNat + x.val → Raises (.ldRegs x) s .addressOutOfRange (some (max s.idx.toNat 0x1000)))

/-- Registers stored by Fx55 and loaded back by Fx65 are the registers, and every byte of memory outside I .. I + x and
the index register are as before (R107 and R108 together). -/
def Obligations.StoreThenLoadGivesTheRegistersBack : Prop :=
  ∀ (s : State) (x : Reg), s.idx.toNat + x.val < 0x1000 →
    ∃ t u, exec (.stRegs x) s = .next t ∧ exec (.ldRegs x) t = .next u ∧ ChangesOnly [.mem, .pc] s u ∧
      (∀ k : Reg, k ≤ x → u.byteAt (s.idx.toNat + k.val) = s.reg k) ∧
      (∀ a, a < s.idx.toNat ∨ s.idx.toNat + x.val < a → u.byteAt a = s.byteAt a) ∧
      ∀ (q : State), q.idx = t.idx → (∀ a, q.byteAt a = t.byteAt a) → ∃ p, exec (.ldRegs x) q = .next p ∧
        ∀ k : Reg, k ≤ x → p.reg k = s.reg k

/-- A word stored by Fx55 right behind the instruction is what the very next step fetches (20_memory.md R54). -/
def Obligations.StoredWordIsFetchedNext : Prop :=
  ∀ (s : State) (x : Reg), CanFetch s → s.pc.toNat + 3 < 0x1000 → 1 ≤ x.val → s.idx = s.pc + 2 →
    s.idx.toNat + x.val < 0x1000 → ∃ t, exec (.stRegs x) s = .next t ∧
      t.fetch = .ok (BitVec.ofNat 16 ((s.reg 0).toNat * 0x100 + (s.reg 1).toNat))

/-! ### Keys and timers (44_keys_and_timers.md) -/

/-- R110 and R111: Ex9E and ExA1. -/
def Obligations.KeySkipsTestTheKey : Prop :=
  RowDecodes 0xE09E 0xF0FF (fun w => .skp (xOf w)) ∧ RowDecodes 0xE0A1 0xF0FF (fun w => .sknp (xOf w)) ∧
  ∀ (s : State) (x : Reg),
    (∀ k : Reg, (s.reg x).toNat = k.val → Skips (.skp x) s (s.key k) ∧ Skips (.sknp x) s (!s.key k)) ∧
    (16 ≤ (s.reg x).toNat → Raises (.skp x) s .keyIndexOutOfRange (some (s.reg x).toNat) ∧
      Raises (.sknp x) s .keyIndexOutOfRange (some (s.reg x).toNat))

/-- R112, R114 and R115: Fx07, Fx15 and Fx18. -/
def Obligations.TimersAreReadAndSet : Prop :=
  RowDecodes 0xF007 0xF0FF (fun w => .ldVdt (xOf w)) ∧ RowDecodes 0xF015 0xF0FF (fun w => .ldDtv (xOf w)) ∧
  RowDecodes 0xF018 0xF0FF (fun w => .ldStv (xOf w)) ∧
  ∀ (s : State) (x : Reg), WritesRegister (.ldVdt x) s x s.dt.toNat ∧
    (∃ t, exec (.ldDtv x) s = .next t ∧ t.dt = s.reg x ∧ t.pc = s.pc + 2 ∧ ChangesOnly [.dt, .pc] s t) ∧
    (∃ t, exec (.ldStv x) s = .next t ∧ t.st = s.reg x ∧ t.pc = s.pc + 2 ∧ ChangesOnly [.st, .pc] s t)

/-- R113: Fx0A, whichever pressed key is drawn; while no key is pressed nothing is written and the step is Waiting.
The draw counter is the model's own (log entry 6). -/
def Obligations.KeyWaitStoresAPressedKey : Prop :=
  RowDecodes 0xF00A 0xF0FF (fun w => .ldVk (xOf w)) ∧
  ∀ (s : State) (x : Reg),
    ((∀ k, s.key k = false) → exec (.ldVk x) s = .next s) ∧
    (∀ k₀, s.key k₀ = true → ∃ (k : Reg) (t : State), exec (.ldVk x) s = .next t ∧ s.key k = true ∧
      (t.reg x).toNat = k.val ∧ (∀ j, j ≠ x → t.reg j = s.reg j) ∧ t.pc = s.pc + 2 ∧
      ChangesOnly [.regs, .pc, .draws] s t) ∧
    (CanFetch s → decode (wordAt s s.pc.toNat) = .known (.ldVk x) →
      ((∀ k, s.key k = false) → transact .step s = (s, .waiting)) ∧
      (∀ k₀, s.key k₀ = true → (transact .step s).2 = .ok))

/-- A waiting machine answers Waiting to every step and changes nothing, however often it is stepped, until the host
presses a key; then the next step stores that key and goes on (R116, and L1.10 of 95_test_vectors.md). -/
def Obligations.WaitHoldsUntilAKeyIsPressed : Prop :=
  ∀ (s : State) (x : Reg), CanFetch s → decode (wordAt s s.pc.toNat) = .known (.ldVk x) → (∀ k, s.key k = false) →
    transact .step s = (s, .waiting) ∧ (∀ n, runSchedule (List.replicate n .step) s = s) ∧
    (∀ k : Reg, ∃ t u, transact (.setKey k.val true) s = (t, .nothing) ∧ transact .step t = (u, .ok) ∧
      (u.reg x).toNat = k.val ∧ u.pc = s.pc + 2) ∧
    (transact .reset s).1.pc = 0x200

/-! ### Whole-machine rules -/

/-- No instruction writes a general register outside the "writes" column of 10_state.md R21; in particular VF is
written only by the six flag instructions and by an instruction that names it (R22, R23). -/
def Obligations.OnlyNamedRegistersAreWritten : Prop :=
  ∀ (i : Instr) (s t : State) (k : Reg), exec i s = .next t → ¬ MayWriteRegister i k → t.reg k = s.reg k

/-- Only Fx33 and Fx55 write memory, and only the bytes at I that 20_memory.md R39 lists. -/
def Obligations.OnlyTwoInstructionsWriteMemory : Prop :=
  ∀ (i : Instr) (s t : State) (a : Nat), exec i s = .next t → t.byteAt a ≠ s.byteAt a →
    (∃ x, i = .ldB x ∧ s.idx.toNat ≤ a ∧ a ≤ s.idx.toNat + 2) ∨
    (∃ x, i = .stRegs x ∧ s.idx.toNat ≤ a ∧ a ≤ s.idx.toNat + x.val)

/-- Only 00E0 and Dxyn write the display or the redraw flag, each sets the flag when it completes, and no
instruction clears it (10_state.md R30, R32). -/
def Obligations.OnlyClearAndDrawWriteTheDisplay : Prop :=
  ∀ (i : Instr) (s t : State), exec i s = .next t →
    ((i = .cls ∨ ∃ x y n, i = .drw x y n) → t.halt = none → t.redraw = true) ∧
    (i ≠ .cls → (∀ x y n, i ≠ .drw x y n) → t.redraw = s.redraw ∧ ∀ c r, t.pixel c r = s.pixel c r) ∧
    (s.redraw = true → t.redraw = true)

/-- Only 2nnn and 00EE touch the stack; only Annn, Fx1E and Fx29 write I; only Fx15 writes DT and only Fx18 writes ST
(10_state.md R24, R26, R28, R29). -/
def Obligations.SpecialRegistersHaveTheirOwnWriters : Prop :=
  ∀ (i : Instr) (s t : State), exec i s = .next t →
    (i ≠ .ret → (∀ nnn, i ≠ .call nnn) → t.sp = s.sp ∧ ∀ k, t.stackAt k = s.stackAt k) ∧
    ((∀ nnn, i ≠ .ldI nnn) → (∀ x, i ≠ .addI x) → (∀ x, i ≠ .ldF x) → t.idx = s.idx) ∧
    ((∀ x, i ≠ .ldDtv x) → t.dt = s.dt) ∧ ((∀ x, i ≠ .ldStv x) → t.st = s.st)

/-- The keypad is read-only to the core (10_state.md R31), and no step changes the parameters (log entry 1). -/
def Obligations.StepNeverWritesTheKeypadOrTheParameters : Prop :=
  ∀ s t : State, step s = .next t → (∀ k, t.key k = s.key k) ∧ t.cfg = s.cfg

/-- R68: the pc after each instruction that raises nothing. -/
def Obligations.PcAfterEachInstruction : Prop :=
  ∀ (i : Instr) (s t : State), s.halt = none → exec i s = .next t → t.halt = none → t.pc.toNat = pcAfter i s

/-- R27: stack entries at SP and above are not observable: no transaction's response depends on them, and no
transaction makes them live before a push overwrites them. -/
def Obligations.DeadStackEntriesAreNotObservable : Prop :=
  ∀ (s t : State) (tr : Transaction), SameButDeadStack s t →
    (transact tr s).2 = (transact tr t).2 ∧ SameButDeadStack (transact tr s).1 (transact tr t).1

/-- Memories in the canonical form, the model's own choice (log entry 8), that read alike at every address are the
same list. -/
def Obligations.CanonicalMemoriesThatReadAlikeAreEqual : Prop :=
  ∀ (c : Config) (m m' : Memory), Memory.wf c m = true → Memory.wf c m' = true →
    (∀ a, Memory.read c m a = Memory.read c m' a) → m = m'

/-- Every step from every state that meets the invariant keeps it: the live stack entries of R38, the bound on pc of
R25, a fault record that carries pc (R121), and the canonical form of the memory list, which is the model's own
choice (log entry 8) and no rule of the spec. -/
def Obligations.StepKeepsTheInvariant : Prop :=
  ∀ s t : State, s.Inv → step s = .next t → t.Inv

/-- The state after reset meets the invariant, under any parameters. Its clause on the canonical form of the memory
list is the model's own choice (log entry 8) and no rule of the spec. -/
def Obligations.ResetMeetsTheInvariant : Prop :=
  State.reset.Inv ∧ ∀ (c : Config) (d : Nat), (State.resetWith c d).Inv

/-- R38: the bounds that hold in every state a transaction can produce from a reset state. -/
def Obligations.ReachableStatesMeetTheBounds : Prop :=
  ∀ s : State, s.Reachable →
    (∀ k, (s.reg k).toNat ≤ 255) ∧ s.dt.toNat ≤ 255 ∧ s.st.toNat ≤ 255 ∧ s.idx.toNat ≤ 65535 ∧
    (∀ k, (s.stackAt k).toNat ≤ 65535) ∧ s.sp.val ≤ 16 ∧
    (∀ k : Fin 16, k.val < s.sp.val → (s.stackAt k).toNat % 2 = 0 ∧ (s.stackAt k).toNat ≤ 0x1000)

/-! ### Transactions (60_exceptions.md, 70_reset_and_hazards.md) -/

/-- R130: `tick()`. -/
def Obligations.TickCountsBothTimersDown : Prop :=
  ∀ s : State,
    (s.halt ≠ none → s.cfg.tickWhenHalted = .ignore → transact .tick s = (s, .beep false)) ∧
    (s.halt = none ∨ s.cfg.tickWhenHalted = .decrement → ∃ t,
      transact .tick s = (t, .beep (decide (s.st.toNat = 1))) ∧
      t.dt.toNat = (if s.dt.toNat > 0 then s.dt.toNat - 1 else s.dt.toNat) ∧
      t.st.toNat = (if s.st.toNat > 0 then s.st.toNat - 1 else s.st.toNat) ∧ ChangesOnly [.dt, .st] s t)

/-- R131: the beep is reported exactly when a tick takes ST from 1 to 0, halted or not under
TICK_WHEN_HALTED = decrement; nothing else beeps. -/
def Obligations.BeepIsTheFallOfTheSoundTimer : Prop :=
  ∀ (tr : Transaction) (s : State),
    ((transact tr s).2 = .beep true ↔ tr = .tick ∧ s.st.toNat = 1 ∧ (transact tr s).1.st.toNat = 0) ∧
    (s.cfg.tickWhenHalted = .decrement → s.st.toNat = 1 →
      (transact .tick s).2 = .beep true ∧ (transact .tick s).1.st.toNat = 0)

/-- R134 and R135: `set_key`; a key changes in no other way but reset. -/
def Obligations.SetKeyWritesOneKeyOrIsRefused : Prop :=
  ∀ (s : State) (index : Nat) (p : Bool),
    (∀ k : Reg, k.val = index → ∃ t, transact (.setKey index p) s = (t, .nothing) ∧ t.key k = p ∧
      (∀ j, j ≠ k → t.key j = s.key j) ∧ ChangesOnly [.keys] s t) ∧
    (16 ≤ index → transact (.setKey index p) s = (s, .refused)) ∧
    ∀ (tr : Transaction) (k : Reg), (transact tr s).1.key k ≠ s.key k → tr = .reset ∨ tr = .setKey k.val !s.key k

/-- R136: the view of the display. -/
def Obligations.DisplayViewIsRowMajor : Prop :=
  ∀ s : State, ∃ bytes : List Byte, transact .display s = (s, .pixels bytes) ∧ bytes.length = 2048 ∧
    ∀ (c : Fin 64) (r : Fin 32), bytes[r.val * 64 + c.val]? = some (if s.pixel c r then 1 else 0)

/-- R137: `consume_redraw_flag()`, twice in a row; between two calls only 00E0 and Dxyn can set the flag again. -/
def Obligations.RedrawFlagIsReadAndCleared : Prop :=
  ∀ s : State, ∃ t, transact .consumeRedrawFlag s = (t, .redrawFlag s.redraw) ∧ t.redraw = false ∧
    ChangesOnly [.redraw] s t ∧ (transact .consumeRedrawFlag t).2 = .redrawFlag false ∧
    ∀ (q : State) (tr : Transaction), q.redraw = false →
      (tr = .step → ∀ i, decode (wordAt q q.pc.toNat) = .known i → i ≠ .cls ∧ ∀ x y n, i ≠ .drw x y n) →
      (transact tr q).1.redraw = false

/-- R145 and R146: `load(bytes)`. -/
def Obligations.LoadCopiesTheProgramOrChangesNothing : Prop :=
  ∀ (s : State) (bytes : List Byte),
    (3584 < bytes.length → transact (.load bytes) s = (s, .loadError)) ∧
    (bytes.length ≤ 3584 → ∃ t, transact (.load bytes) s = (t, .ok) ∧
      (∀ (k : Nat) (h : k < bytes.length), t.byteAt (0x200 + k) = bytes[k]) ∧
      (∀ a, a < 0x200 ∨ 0x200 + bytes.length ≤ a → t.byteAt a = s.byteAt a) ∧ ChangesOnly [.mem] s t)

/-- R37 and R143: every piece of state after `reset()`, from any state, under any parameters. -/
def Obligations.ResetRestoresEveryPieceOfState : Prop :=
  ∀ s : State, ∃ t, transact .reset s = (t, .nothing) ∧
    (∀ k, t.reg k = 0) ∧ t.idx = 0 ∧ t.pc = 0x200 ∧ t.sp.val = 0 ∧ (∀ k, t.stackAt k = 0) ∧ t.dt = 0 ∧ t.st = 0 ∧
    (∀ c r, t.pixel c r = false) ∧ (∀ k, t.key k = false) ∧ t.redraw = false ∧ t.halt = none ∧
    (∀ k : Fin 80, t.byteAt (s.cfg.fontBase.val + k.val) = s.cfg.fontData[k.val]) ∧
    (∀ a, a < s.cfg.fontBase.val ∨ s.cfg.fontBase.val + 80 ≤ a → t.byteAt a = 0) ∧ t.cfg = s.cfg

/-! ### The invariant over transactions -/

/-- Every transaction from every state that meets the invariant keeps it, reset, load, tick and the host's other
transactions as well as step. Its clause on the canonical form of the memory list is the model's own choice (log
entry 8) and no rule of the spec. -/
def Obligations.TransactionsKeepTheInvariant : Prop :=
  ∀ (s : State) (tr : Transaction), s.Inv → (transact tr s).1.Inv

/-- Every state a schedule of transactions can produce from a reset state meets the invariant, whose clause on the
canonical form of the memory list is the model's own choice (log entry 8) and no rule of the spec. -/
def Obligations.ReachableStatesMeetTheInvariant : Prop :=
  ∀ s : State, s.Reachable → s.Inv
end

