-- ==== Sys2Proof/Laws/Decode.lean ====
section
/-! SUPPORT. The fields of a word and the words of the layouts as natural numbers, and what each field of an
assembled word is. Later proofs about the decoder and the encoder cite these and never look at bits. -/

namespace Sys2Proof

/-! ### Fields as numbers (30_encoding.md R57) -/

theorem fieldOp_toNat (w : Word) : (fieldOp w).toNat = w.toNat / 0x1000 := by
  have := w.isLt
  simp only [fieldOp, BitVec.extractLsb'_toNat, Nat.shiftRight_eq_div_pow]
  omega

theorem fieldX_val (w : Word) : (fieldX w).val = w.toNat / 0x100 % 0x10 := by
  simp only [fieldX, regOfBits, BitVec.extractLsb'_toNat, Nat.shiftRight_eq_div_pow]

theorem fieldY_val (w : Word) : (fieldY w).val = w.toNat / 0x10 % 0x10 := by
  simp only [fieldY, regOfBits, BitVec.extractLsb'_toNat, Nat.shiftRight_eq_div_pow]

theorem fieldN_toNat (w : Word) : (fieldN w).toNat = w.toNat % 0x10 := by
  simp only [fieldN, BitVec.extractLsb'_toNat, Nat.shiftRight_eq_div_pow]
  omega

theorem fieldKK_toNat (w : Word) : (fieldKK w).toNat = w.toNat % 0x100 := by
  simp only [fieldKK, BitVec.extractLsb'_toNat, Nat.shiftRight_eq_div_pow]
  omega

theorem fieldNNN_toNat (w : Word) : (fieldNNN w).toNat = w.toNat % 0x1000 := by
  simp only [fieldNNN, BitVec.extractLsb'_toNat, Nat.shiftRight_eq_div_pow]
  omega

theorem regBits_toNat (r : Reg) : (regBits r).toNat = r.val := by
  simp only [regBits, BitVec.toNat_ofNat]
  omega

/-! ### Layouts as numbers (R59) -/

/-- Concatenation puts `a` in the high bits (00_scope.md R9). -/
theorem toNat_append_add {m n : Nat} (a : BitVec m) (b : BitVec n) : (a ++ b).toNat = 2 ^ n * a.toNat + b.toNat := by
  rw [BitVec.toNat_append, Nat.shiftLeft_eq, Nat.mul_comm, ← Nat.two_pow_add_eq_or_of_lt b.isLt]

theorem wordNNN_toNat (op : BitVec 4) (nnn : Addr12) : (wordNNN op nnn).toNat = 0x1000 * op.toNat + nnn.toNat :=
  toNat_append_add op nnn

theorem wordXKK_toNat (op : BitVec 4) (x : Reg) (kk : Byte) :
    (wordXKK op x kk).toNat = 0x1000 * op.toNat + 0x100 * x.val + kk.toNat := by
  rw [wordXKK, toNat_append_add, toNat_append_add, regBits_toNat]
  omega

theorem wordXYN_toNat (op : BitVec 4) (x y : Reg) (n : BitVec 4) :
    (wordXYN op x y n).toNat = 0x1000 * op.toNat + 0x100 * x.val + 0x10 * y.val + n.toNat := by
  rw [wordXYN, toNat_append_add, toNat_append_add, toNat_append_add, regBits_toNat, regBits_toNat]
  omega

/-! ### The fields of an assembled word -/

theorem fieldOp_wordNNN (op : BitVec 4) (nnn : Addr12) : fieldOp (wordNNN op nnn) = op :=
  BitVec.eq_of_toNat_eq (by rw [fieldOp_toNat, wordNNN_toNat]; have := nnn.isLt; omega)

theorem fieldNNN_wordNNN (op : BitVec 4) (nnn : Addr12) : fieldNNN (wordNNN op nnn) = nnn :=
  BitVec.eq_of_toNat_eq (by rw [fieldNNN_toNat, wordNNN_toNat]; have := nnn.isLt; omega)

theorem fieldOp_wordXKK (op : BitVec 4) (x : Reg) (kk : Byte) : fieldOp (wordXKK op x kk) = op :=
  BitVec.eq_of_toNat_eq (by rw [fieldOp_toNat, wordXKK_toNat]; have := kk.isLt; omega)

theorem fieldX_wordXKK (op : BitVec 4) (x : Reg) (kk : Byte) : fieldX (wordXKK op x kk) = x :=
  Fin.ext (by rw [fieldX_val, wordXKK_toNat]; have := kk.isLt; omega)

theorem fieldKK_wordXKK (op : BitVec 4) (x : Reg) (kk : Byte) : fieldKK (wordXKK op x kk) = kk :=
  BitVec.eq_of_toNat_eq (by rw [fieldKK_toNat, wordXKK_toNat]; have := kk.isLt; omega)

theorem fieldOp_wordXYN (op : BitVec 4) (x y : Reg) (n : BitVec 4) : fieldOp (wordXYN op x y n) = op :=
  BitVec.eq_of_toNat_eq (by rw [fieldOp_toNat, wordXYN_toNat]; have := n.isLt; omega)

theorem fieldX_wordXYN (op : BitVec 4) (x y : Reg) (n : BitVec 4) : fieldX (wordXYN op x y n) = x :=
  Fin.ext (by rw [fieldX_val, wordXYN_toNat]; have := n.isLt; omega)

theorem fieldY_wordXYN (op : BitVec 4) (x y : Reg) (n : BitVec 4) : fieldY (wordXYN op x y n) = y :=
  Fin.ext (by rw [fieldY_val, wordXYN_toNat]; have := n.isLt; omega)

theorem fieldN_wordXYN (op : BitVec 4) (x y : Reg) (n : BitVec 4) : fieldN (wordXYN op x y n) = n :=
  BitVec.eq_of_toNat_eq (by rw [fieldN_toNat, wordXYN_toNat]; have := n.isLt; omega)

/-- A word is its four nibbles, its two nibbles and its low byte, its nibble and its low 12 bits. -/
theorem word_eq_wordXYN (w : Word) : w = wordXYN (fieldOp w) (fieldX w) (fieldY w) (fieldN w) :=
  BitVec.eq_of_toNat_eq (by rw [wordXYN_toNat, fieldOp_toNat, fieldX_val, fieldY_val, fieldN_toNat]; omega)

theorem word_eq_wordXKK (w : Word) : w = wordXKK (fieldOp w) (fieldX w) (fieldKK w) :=
  BitVec.eq_of_toNat_eq (by rw [wordXKK_toNat, fieldOp_toNat, fieldX_val, fieldKK_toNat]; omega)

theorem word_eq_wordNNN (w : Word) : w = wordNNN (fieldOp w) (fieldNNN w) :=
  BitVec.eq_of_toNat_eq (by rw [wordNNN_toNat, fieldOp_toNat, fieldNNN_toNat]; omega)

/-- The last family: what is none of the other 15 nibbles is 0xF. -/
theorem nibble_eq_F (q : BitVec 4) (h0 : q ≠ 0x0#4) (h1 : q ≠ 0x1#4) (h2 : q ≠ 0x2#4) (h3 : q ≠ 0x3#4)
    (h4 : q ≠ 0x4#4) (h5 : q ≠ 0x5#4) (h6 : q ≠ 0x6#4) (h7 : q ≠ 0x7#4) (h8 : q ≠ 0x8#4) (h9 : q ≠ 0x9#4)
    (hA : q ≠ 0xA#4) (hB : q ≠ 0xB#4) (hC : q ≠ 0xC#4) (hD : q ≠ 0xD#4) (hE : q ≠ 0xE#4) : q = 0xF#4 := by
  bv_omega

/-! ### The masks of the opcode table -/

theorem append_and_append {m n : Nat} (a c : BitVec m) (b d : BitVec n) :
    (a ++ b) &&& (c ++ d) = (a &&& c) ++ (b &&& d) := by
  ext i hi
  simp only [BitVec.getElem_and, BitVec.getElem_append]
  split <;> rfl

/-- A word is its top nibble, its second nibble and its low byte. -/
theorem word_eq_parts (w : Word) : w = (fieldOp w ++ w.extractLsb' 8 4) ++ fieldKK w := by
  apply BitVec.eq_of_toNat_eq
  rw [toNat_append_add, toNat_append_add, fieldOp_toNat, fieldKK_toNat, BitVec.extractLsb'_toNat,
    Nat.shiftRight_eq_div_pow]
  omega

/-- The mask keeps what it covers: stated once for a mask given in the same three parts. -/
theorem and_parts_toNat (w : Word) (b : Byte) :
    (w &&& ((0xF#4 ++ 0x0#4) ++ b)).toNat = 0x1000 * (w.toNat / 0x1000) + (fieldKK w &&& b).toNat := by
  have h : w &&& ((0xF#4 ++ 0x0#4) ++ b) =
      ((fieldOp w &&& 0xF#4) ++ (w.extractLsb' 8 4 &&& 0x0#4)) ++ (fieldKK w &&& b) := by
    rw [← append_and_append, ← append_and_append, ← word_eq_parts]
  rw [h, toNat_append_add]
  have h1 : fieldOp w &&& 0xF#4 = fieldOp w := BitVec.and_allOnes
  have h2 : BitVec.extractLsb' 8 4 w &&& 0x0#4 = 0#4 := BitVec.and_zero
  rw [h1, h2, toNat_append_add, fieldOp_toNat]
  show 2 ^ 8 * (2 ^ 4 * (w.toNat / 0x1000) + 0) + _ = _
  omega

theorem and_F000_toNat (w : Word) : (w &&& 0xF000#16).toNat = 0x1000 * (w.toNat / 0x1000) := by
  have h := and_parts_toNat w 0x00#8
  have h2 : fieldKK w &&& 0x00#8 = 0#8 := BitVec.and_zero
  rw [h2] at h
  exact h

theorem and_F0FF_toNat (w : Word) :
    (w &&& 0xF0FF#16).toNat = 0x1000 * (w.toNat / 0x1000) + w.toNat % 0x100 := by
  have h := and_parts_toNat w 0xFF#8
  have h2 : fieldKK w &&& 0xFF#8 = fieldKK w := BitVec.and_allOnes
  rw [h2, fieldKK_toNat] at h
  exact h

theorem and_F00F_toNat (w : Word) :
    (w &&& 0xF00F#16).toNat = 0x1000 * (w.toNat / 0x1000) + w.toNat % 0x10 := by
  have h := and_parts_toNat w 0x0F#8
  have h2 : (fieldKK w &&& 0x0F#8).toNat = w.toNat % 0x10 := by
    rw [BitVec.toNat_and, fieldKK_toNat]
    have : (0x0F#8).toNat = 2 ^ 4 - 1 := rfl
    rw [this, Nat.and_two_pow_sub_one_eq_mod]
    omega
  rw [h2] at h
  exact h

theorem and_FFFF_toNat (w : Word) : (w &&& 0xFFFF#16).toNat = w.toNat :=
  congrArg BitVec.toNat (BitVec.and_allOnes : w &&& BitVec.allOnes 16 = w)

/-! ### What a word on a row has in its fields -/

/-- A word on a row whose mask keeps the top nibble. -/
theorem fieldOp_of_F000 {w p : Word} (h : w &&& 0xF000#16 = p) :
    fieldOp w = BitVec.ofNat 4 (p.toNat / 0x1000) := by
  have hn := congrArg BitVec.toNat h
  rw [and_F000_toNat] at hn
  exact BitVec.eq_of_toNat_eq (by rw [fieldOp_toNat, BitVec.toNat_ofNat]; omega)

/-- A word on a row whose mask keeps the top nibble and `n`. -/
theorem fields_of_F00F {w p : Word} (h : w &&& 0xF00F#16 = p) :
    fieldOp w = BitVec.ofNat 4 (p.toNat / 0x1000) ∧ fieldN w = BitVec.ofNat 4 (p.toNat % 0x10) := by
  have hn := congrArg BitVec.toNat h
  rw [and_F00F_toNat] at hn
  exact ⟨BitVec.eq_of_toNat_eq (by rw [fieldOp_toNat, BitVec.toNat_ofNat]; omega),
    BitVec.eq_of_toNat_eq (by rw [fieldN_toNat, BitVec.toNat_ofNat]; omega)⟩

/-- A word on a row whose mask keeps the top nibble and `kk`. -/
theorem fields_of_F0FF {w p : Word} (h : w &&& 0xF0FF#16 = p) :
    fieldOp w = BitVec.ofNat 4 (p.toNat / 0x1000) ∧ fieldKK w = BitVec.ofNat 8 (p.toNat % 0x100) := by
  have hn := congrArg BitVec.toNat h
  rw [and_F0FF_toNat] at hn
  exact ⟨BitVec.eq_of_toNat_eq (by rw [fieldOp_toNat, BitVec.toNat_ofNat]; omega),
    BitVec.eq_of_toNat_eq (by rw [fieldKK_toNat, BitVec.toNat_ofNat]; omega)⟩

end Sys2Proof
end

