-- ==== Sys2Proof/Laws/State.lean ====
section
/-! SUPPORT. One lemma per field, and per reader, for each named update of the state: what it writes there, or
that it leaves it alone. No later proof unfolds a record update. -/

namespace Sys2Proof.Machine

/-! ### State.setReg -/

@[simp] theorem State.setReg_v (s : State) (x : Reg) (b : Byte) : (s.setReg x b).v = s.v.set x.val b := rfl
@[simp] theorem State.setReg_idx (s : State) (x : Reg) (b : Byte) : (s.setReg x b).idx = s.idx := rfl
@[simp] theorem State.setReg_pc (s : State) (x : Reg) (b : Byte) : (s.setReg x b).pc = s.pc := rfl
@[simp] theorem State.setReg_stack (s : State) (x : Reg) (b : Byte) : (s.setReg x b).stack = s.stack := rfl
@[simp] theorem State.setReg_sp (s : State) (x : Reg) (b : Byte) : (s.setReg x b).sp = s.sp := rfl
@[simp] theorem State.setReg_dt (s : State) (x : Reg) (b : Byte) : (s.setReg x b).dt = s.dt := rfl
@[simp] theorem State.setReg_st (s : State) (x : Reg) (b : Byte) : (s.setReg x b).st = s.st := rfl
@[simp] theorem State.setReg_disp (s : State) (x : Reg) (b : Byte) : (s.setReg x b).disp = s.disp := rfl
@[simp] theorem State.setReg_keys (s : State) (x : Reg) (b : Byte) : (s.setReg x b).keys = s.keys := rfl
@[simp] theorem State.setReg_redraw (s : State) (x : Reg) (b : Byte) : (s.setReg x b).redraw = s.redraw := rfl
@[simp] theorem State.setReg_halt (s : State) (x : Reg) (b : Byte) : (s.setReg x b).halt = s.halt := rfl
@[simp] theorem State.setReg_mem (s : State) (x : Reg) (b : Byte) : (s.setReg x b).mem = s.mem := rfl
@[simp] theorem State.setReg_cfg (s : State) (x : Reg) (b : Byte) : (s.setReg x b).cfg = s.cfg := rfl
@[simp] theorem State.setReg_draws (s : State) (x : Reg) (b : Byte) : (s.setReg x b).draws = s.draws := rfl
@[simp] theorem State.setReg_byteAt (s : State) (x : Reg) (b : Byte) (i : Nat) : (s.setReg x b).byteAt i = s.byteAt i := rfl
@[simp] theorem State.setReg_key (s : State) (x : Reg) (b : Byte) (k : Reg) : (s.setReg x b).key k = s.key k := rfl
@[simp] theorem State.setReg_pixel (s : State) (x : Reg) (b : Byte) (c : Fin 64) (r : Fin 32) : (s.setReg x b).pixel c r = s.pixel c r := rfl
@[simp] theorem State.setReg_stackAt (s : State) (x : Reg) (b : Byte) (k : Fin 16) : (s.setReg x b).stackAt k = s.stackAt k := rfl
@[simp] theorem State.setReg_base (s : State) (x : Reg) (b : Byte) : (s.setReg x b).base = s.base := rfl
@[simp] theorem State.setReg_pressedKeys (s : State) (x : Reg) (b : Byte) : (s.setReg x b).pressedKeys = s.pressedKeys := rfl

/-! ### State.setIdx -/

@[simp] theorem State.setIdx_v (s : State) (w : Word) : (s.setIdx w).v = s.v := rfl
@[simp] theorem State.setIdx_idx (s : State) (w : Word) : (s.setIdx w).idx = w := rfl
@[simp] theorem State.setIdx_pc (s : State) (w : Word) : (s.setIdx w).pc = s.pc := rfl
@[simp] theorem State.setIdx_stack (s : State) (w : Word) : (s.setIdx w).stack = s.stack := rfl
@[simp] theorem State.setIdx_sp (s : State) (w : Word) : (s.setIdx w).sp = s.sp := rfl
@[simp] theorem State.setIdx_dt (s : State) (w : Word) : (s.setIdx w).dt = s.dt := rfl
@[simp] theorem State.setIdx_st (s : State) (w : Word) : (s.setIdx w).st = s.st := rfl
@[simp] theorem State.setIdx_disp (s : State) (w : Word) : (s.setIdx w).disp = s.disp := rfl
@[simp] theorem State.setIdx_keys (s : State) (w : Word) : (s.setIdx w).keys = s.keys := rfl
@[simp] theorem State.setIdx_redraw (s : State) (w : Word) : (s.setIdx w).redraw = s.redraw := rfl
@[simp] theorem State.setIdx_halt (s : State) (w : Word) : (s.setIdx w).halt = s.halt := rfl
@[simp] theorem State.setIdx_mem (s : State) (w : Word) : (s.setIdx w).mem = s.mem := rfl
@[simp] theorem State.setIdx_cfg (s : State) (w : Word) : (s.setIdx w).cfg = s.cfg := rfl
@[simp] theorem State.setIdx_draws (s : State) (w : Word) : (s.setIdx w).draws = s.draws := rfl
@[simp] theorem State.setIdx_reg (s : State) (w : Word) (k : Reg) : (s.setIdx w).reg k = s.reg k := rfl
@[simp] theorem State.setIdx_byteAt (s : State) (w : Word) (i : Nat) : (s.setIdx w).byteAt i = s.byteAt i := rfl
@[simp] theorem State.setIdx_key (s : State) (w : Word) (k : Reg) : (s.setIdx w).key k = s.key k := rfl
@[simp] theorem State.setIdx_pixel (s : State) (w : Word) (c : Fin 64) (r : Fin 32) : (s.setIdx w).pixel c r = s.pixel c r := rfl
@[simp] theorem State.setIdx_stackAt (s : State) (w : Word) (k : Fin 16) : (s.setIdx w).stackAt k = s.stackAt k := rfl
@[simp] theorem State.setIdx_pressedKeys (s : State) (w : Word) : (s.setIdx w).pressedKeys = s.pressedKeys := rfl

/-! ### State.setDt -/

@[simp] theorem State.setDt_v (s : State) (b : Byte) : (s.setDt b).v = s.v := rfl
@[simp] theorem State.setDt_idx (s : State) (b : Byte) : (s.setDt b).idx = s.idx := rfl
@[simp] theorem State.setDt_pc (s : State) (b : Byte) : (s.setDt b).pc = s.pc := rfl
@[simp] theorem State.setDt_stack (s : State) (b : Byte) : (s.setDt b).stack = s.stack := rfl
@[simp] theorem State.setDt_sp (s : State) (b : Byte) : (s.setDt b).sp = s.sp := rfl
@[simp] theorem State.setDt_dt (s : State) (b : Byte) : (s.setDt b).dt = b := rfl
@[simp] theorem State.setDt_st (s : State) (b : Byte) : (s.setDt b).st = s.st := rfl
@[simp] theorem State.setDt_disp (s : State) (b : Byte) : (s.setDt b).disp = s.disp := rfl
@[simp] theorem State.setDt_keys (s : State) (b : Byte) : (s.setDt b).keys = s.keys := rfl
@[simp] theorem State.setDt_redraw (s : State) (b : Byte) : (s.setDt b).redraw = s.redraw := rfl
@[simp] theorem State.setDt_halt (s : State) (b : Byte) : (s.setDt b).halt = s.halt := rfl
@[simp] theorem State.setDt_mem (s : State) (b : Byte) : (s.setDt b).mem = s.mem := rfl
@[simp] theorem State.setDt_cfg (s : State) (b : Byte) : (s.setDt b).cfg = s.cfg := rfl
@[simp] theorem State.setDt_draws (s : State) (b : Byte) : (s.setDt b).draws = s.draws := rfl
@[simp] theorem State.setDt_reg (s : State) (b : Byte) (k : Reg) : (s.setDt b).reg k = s.reg k := rfl
@[simp] theorem State.setDt_byteAt (s : State) (b : Byte) (i : Nat) : (s.setDt b).byteAt i = s.byteAt i := rfl
@[simp] theorem State.setDt_key (s : State) (b : Byte) (k : Reg) : (s.setDt b).key k = s.key k := rfl
@[simp] theorem State.setDt_pixel (s : State) (b : Byte) (c : Fin 64) (r : Fin 32) : (s.setDt b).pixel c r = s.pixel c r := rfl
@[simp] theorem State.setDt_stackAt (s : State) (b : Byte) (k : Fin 16) : (s.setDt b).stackAt k = s.stackAt k := rfl
@[simp] theorem State.setDt_base (s : State) (b : Byte) : (s.setDt b).base = s.base := rfl
@[simp] theorem State.setDt_pressedKeys (s : State) (b : Byte) : (s.setDt b).pressedKeys = s.pressedKeys := rfl

/-! ### State.setSt -/

@[simp] theorem State.setSt_v (s : State) (b : Byte) : (s.setSt b).v = s.v := rfl
@[simp] theorem State.setSt_idx (s : State) (b : Byte) : (s.setSt b).idx = s.idx := rfl
@[simp] theorem State.setSt_pc (s : State) (b : Byte) : (s.setSt b).pc = s.pc := rfl
@[simp] theorem State.setSt_stack (s : State) (b : Byte) : (s.setSt b).stack = s.stack := rfl
@[simp] theorem State.setSt_sp (s : State) (b : Byte) : (s.setSt b).sp = s.sp := rfl
@[simp] theorem State.setSt_dt (s : State) (b : Byte) : (s.setSt b).dt = s.dt := rfl
@[simp] theorem State.setSt_st (s : State) (b : Byte) : (s.setSt b).st = b := rfl
@[simp] theorem State.setSt_disp (s : State) (b : Byte) : (s.setSt b).disp = s.disp := rfl
@[simp] theorem State.setSt_keys (s : State) (b : Byte) : (s.setSt b).keys = s.keys := rfl
@[simp] theorem State.setSt_redraw (s : State) (b : Byte) : (s.setSt b).redraw = s.redraw := rfl
@[simp] theorem State.setSt_halt (s : State) (b : Byte) : (s.setSt b).halt = s.halt := rfl
@[simp] theorem State.setSt_mem (s : State) (b : Byte) : (s.setSt b).mem = s.mem := rfl
@[simp] theorem State.setSt_cfg (s : State) (b : Byte) : (s.setSt b).cfg = s.cfg := rfl
@[simp] theorem State.setSt_draws (s : State) (b : Byte) : (s.setSt b).draws = s.draws := rfl
@[simp] theorem State.setSt_reg (s : State) (b : Byte) (k : Reg) : (s.setSt b).reg k = s.reg k := rfl
@[simp] theorem State.setSt_byteAt (s : State) (b : Byte) (i : Nat) : (s.setSt b).byteAt i = s.byteAt i := rfl
@[simp] theorem State.setSt_key (s : State) (b : Byte) (k : Reg) : (s.setSt b).key k = s.key k := rfl
@[simp] theorem State.setSt_pixel (s : State) (b : Byte) (c : Fin 64) (r : Fin 32) : (s.setSt b).pixel c r = s.pixel c r := rfl
@[simp] theorem State.setSt_stackAt (s : State) (b : Byte) (k : Fin 16) : (s.setSt b).stackAt k = s.stackAt k := rfl
@[simp] theorem State.setSt_base (s : State) (b : Byte) : (s.setSt b).base = s.base := rfl
@[simp] theorem State.setSt_pressedKeys (s : State) (b : Byte) : (s.setSt b).pressedKeys = s.pressedKeys := rfl

/-! ### State.setDisplay -/

@[simp] theorem State.setDisplay_v (s : State) (d : Display) : (s.setDisplay d).v = s.v := rfl
@[simp] theorem State.setDisplay_idx (s : State) (d : Display) : (s.setDisplay d).idx = s.idx := rfl
@[simp] theorem State.setDisplay_pc (s : State) (d : Display) : (s.setDisplay d).pc = s.pc := rfl
@[simp] theorem State.setDisplay_stack (s : State) (d : Display) : (s.setDisplay d).stack = s.stack := rfl
@[simp] theorem State.setDisplay_sp (s : State) (d : Display) : (s.setDisplay d).sp = s.sp := rfl
@[simp] theorem State.setDisplay_dt (s : State) (d : Display) : (s.setDisplay d).dt = s.dt := rfl
@[simp] theorem State.setDisplay_st (s : State) (d : Display) : (s.setDisplay d).st = s.st := rfl
@[simp] theorem State.setDisplay_disp (s : State) (d : Display) : (s.setDisplay d).disp = d := rfl
@[simp] theorem State.setDisplay_keys (s : State) (d : Display) : (s.setDisplay d).keys = s.keys := rfl
@[simp] theorem State.setDisplay_redraw (s : State) (d : Display) : (s.setDisplay d).redraw = true := rfl
@[simp] theorem State.setDisplay_halt (s : State) (d : Display) : (s.setDisplay d).halt = s.halt := rfl
@[simp] theorem State.setDisplay_mem (s : State) (d : Display) : (s.setDisplay d).mem = s.mem := rfl
@[simp] theorem State.setDisplay_cfg (s : State) (d : Display) : (s.setDisplay d).cfg = s.cfg := rfl
@[simp] theorem State.setDisplay_draws (s : State) (d : Display) : (s.setDisplay d).draws = s.draws := rfl
@[simp] theorem State.setDisplay_reg (s : State) (d : Display) (k : Reg) : (s.setDisplay d).reg k = s.reg k := rfl
@[simp] theorem State.setDisplay_byteAt (s : State) (d : Display) (i : Nat) : (s.setDisplay d).byteAt i = s.byteAt i := rfl
@[simp] theorem State.setDisplay_key (s : State) (d : Display) (k : Reg) : (s.setDisplay d).key k = s.key k := rfl
@[simp] theorem State.setDisplay_stackAt (s : State) (d : Display) (k : Fin 16) : (s.setDisplay d).stackAt k = s.stackAt k := rfl
@[simp] theorem State.setDisplay_base (s : State) (d : Display) : (s.setDisplay d).base = s.base := rfl
@[simp] theorem State.setDisplay_pressedKeys (s : State) (d : Display) : (s.setDisplay d).pressedKeys = s.pressedKeys := rfl

/-! ### State.countDraw -/

@[simp] theorem State.countDraw_v (s : State) : s.countDraw.v = s.v := rfl
@[simp] theorem State.countDraw_idx (s : State) : s.countDraw.idx = s.idx := rfl
@[simp] theorem State.countDraw_pc (s : State) : s.countDraw.pc = s.pc := rfl
@[simp] theorem State.countDraw_stack (s : State) : s.countDraw.stack = s.stack := rfl
@[simp] theorem State.countDraw_sp (s : State) : s.countDraw.sp = s.sp := rfl
@[simp] theorem State.countDraw_dt (s : State) : s.countDraw.dt = s.dt := rfl
@[simp] theorem State.countDraw_st (s : State) : s.countDraw.st = s.st := rfl
@[simp] theorem State.countDraw_disp (s : State) : s.countDraw.disp = s.disp := rfl
@[simp] theorem State.countDraw_keys (s : State) : s.countDraw.keys = s.keys := rfl
@[simp] theorem State.countDraw_redraw (s : State) : s.countDraw.redraw = s.redraw := rfl
@[simp] theorem State.countDraw_halt (s : State) : s.countDraw.halt = s.halt := rfl
@[simp] theorem State.countDraw_mem (s : State) : s.countDraw.mem = s.mem := rfl
@[simp] theorem State.countDraw_cfg (s : State) : s.countDraw.cfg = s.cfg := rfl
@[simp] theorem State.countDraw_draws (s : State) : s.countDraw.draws = s.draws + 1 := rfl
@[simp] theorem State.countDraw_reg (s : State) (k : Reg) : s.countDraw.reg k = s.reg k := rfl
@[simp] theorem State.countDraw_byteAt (s : State) (i : Nat) : s.countDraw.byteAt i = s.byteAt i := rfl
@[simp] theorem State.countDraw_key (s : State) (k : Reg) : s.countDraw.key k = s.key k := rfl
@[simp] theorem State.countDraw_pixel (s : State) (c : Fin 64) (r : Fin 32) : s.countDraw.pixel c r = s.pixel c r := rfl
@[simp] theorem State.countDraw_stackAt (s : State) (k : Fin 16) : s.countDraw.stackAt k = s.stackAt k := rfl
@[simp] theorem State.countDraw_base (s : State) : s.countDraw.base = s.base := rfl
@[simp] theorem State.countDraw_pressedKeys (s : State) : s.countDraw.pressedKeys = s.pressedKeys := rfl

/-! ### State.setByte -/

@[simp] theorem State.setByte_v (s : State) (a : Nat) (b : Byte) : (s.setByte a b).v = s.v := rfl
@[simp] theorem State.setByte_idx (s : State) (a : Nat) (b : Byte) : (s.setByte a b).idx = s.idx := rfl
@[simp] theorem State.setByte_pc (s : State) (a : Nat) (b : Byte) : (s.setByte a b).pc = s.pc := rfl
@[simp] theorem State.setByte_stack (s : State) (a : Nat) (b : Byte) : (s.setByte a b).stack = s.stack := rfl
@[simp] theorem State.setByte_sp (s : State) (a : Nat) (b : Byte) : (s.setByte a b).sp = s.sp := rfl
@[simp] theorem State.setByte_dt (s : State) (a : Nat) (b : Byte) : (s.setByte a b).dt = s.dt := rfl
@[simp] theorem State.setByte_st (s : State) (a : Nat) (b : Byte) : (s.setByte a b).st = s.st := rfl
@[simp] theorem State.setByte_disp (s : State) (a : Nat) (b : Byte) : (s.setByte a b).disp = s.disp := rfl
@[simp] theorem State.setByte_keys (s : State) (a : Nat) (b : Byte) : (s.setByte a b).keys = s.keys := rfl
@[simp] theorem State.setByte_redraw (s : State) (a : Nat) (b : Byte) : (s.setByte a b).redraw = s.redraw := rfl
@[simp] theorem State.setByte_halt (s : State) (a : Nat) (b : Byte) : (s.setByte a b).halt = s.halt := rfl
@[simp] theorem State.setByte_mem (s : State) (a : Nat) (b : Byte) : (s.setByte a b).mem = Memory.write s.cfg s.mem a b := rfl
@[simp] theorem State.setByte_cfg (s : State) (a : Nat) (b : Byte) : (s.setByte a b).cfg = s.cfg := rfl
@[simp] theorem State.setByte_draws (s : State) (a : Nat) (b : Byte) : (s.setByte a b).draws = s.draws := rfl
@[simp] theorem State.setByte_reg (s : State) (a : Nat) (b : Byte) (k : Reg) : (s.setByte a b).reg k = s.reg k := rfl
@[simp] theorem State.setByte_key (s : State) (a : Nat) (b : Byte) (k : Reg) : (s.setByte a b).key k = s.key k := rfl
@[simp] theorem State.setByte_pixel (s : State) (a : Nat) (b : Byte) (c : Fin 64) (r : Fin 32) : (s.setByte a b).pixel c r = s.pixel c r := rfl
@[simp] theorem State.setByte_stackAt (s : State) (a : Nat) (b : Byte) (k : Fin 16) : (s.setByte a b).stackAt k = s.stackAt k := rfl
@[simp] theorem State.setByte_base (s : State) (a : Nat) (b : Byte) : (s.setByte a b).base = s.base := rfl
@[simp] theorem State.setByte_pressedKeys (s : State) (a : Nat) (b : Byte) : (s.setByte a b).pressedKeys = s.pressedKeys := rfl

/-! ### State.setStack -/

@[simp] theorem State.setStack_v (s : State) (e : Vector Word 16) (n : Fin 17) : (s.setStack e n).v = s.v := rfl
@[simp] theorem State.setStack_idx (s : State) (e : Vector Word 16) (n : Fin 17) : (s.setStack e n).idx = s.idx := rfl
@[simp] theorem State.setStack_pc (s : State) (e : Vector Word 16) (n : Fin 17) : (s.setStack e n).pc = s.pc := rfl
@[simp] theorem State.setStack_stack (s : State) (e : Vector Word 16) (n : Fin 17) : (s.setStack e n).stack = e := rfl
@[simp] theorem State.setStack_sp (s : State) (e : Vector Word 16) (n : Fin 17) : (s.setStack e n).sp = n := rfl
@[simp] theorem State.setStack_dt (s : State) (e : Vector Word 16) (n : Fin 17) : (s.setStack e n).dt = s.dt := rfl
@[simp] theorem State.setStack_st (s : State) (e : Vector Word 16) (n : Fin 17) : (s.setStack e n).st = s.st := rfl
@[simp] theorem State.setStack_disp (s : State) (e : Vector Word 16) (n : Fin 17) : (s.setStack e n).disp = s.disp := rfl
@[simp] theorem State.setStack_keys (s : State) (e : Vector Word 16) (n : Fin 17) : (s.setStack e n).keys = s.keys := rfl
@[simp] theorem State.setStack_redraw (s : State) (e : Vector Word 16) (n : Fin 17) : (s.setStack e n).redraw = s.redraw := rfl
@[simp] theorem State.setStack_halt (s : State) (e : Vector Word 16) (n : Fin 17) : (s.setStack e n).halt = s.halt := rfl
@[simp] theorem State.setStack_mem (s : State) (e : Vector Word 16) (n : Fin 17) : (s.setStack e n).mem = s.mem := rfl
@[simp] theorem State.setStack_cfg (s : State) (e : Vector Word 16) (n : Fin 17) : (s.setStack e n).cfg = s.cfg := rfl
@[simp] theorem State.setStack_draws (s : State) (e : Vector Word 16) (n : Fin 17) : (s.setStack e n).draws = s.draws := rfl
@[simp] theorem State.setStack_reg (s : State) (e : Vector Word 16) (n : Fin 17) (k : Reg) : (s.setStack e n).reg k = s.reg k := rfl
@[simp] theorem State.setStack_byteAt (s : State) (e : Vector Word 16) (n : Fin 17) (i : Nat) : (s.setStack e n).byteAt i = s.byteAt i := rfl
@[simp] theorem State.setStack_key (s : State) (e : Vector Word 16) (n : Fin 17) (k : Reg) : (s.setStack e n).key k = s.key k := rfl
@[simp] theorem State.setStack_pixel (s : State) (e : Vector Word 16) (n : Fin 17) (c : Fin 64) (r : Fin 32) : (s.setStack e n).pixel c r = s.pixel c r := rfl
@[simp] theorem State.setStack_base (s : State) (e : Vector Word 16) (n : Fin 17) : (s.setStack e n).base = s.base := rfl
@[simp] theorem State.setStack_pressedKeys (s : State) (e : Vector Word 16) (n : Fin 17) : (s.setStack e n).pressedKeys = s.pressedKeys := rfl

/-! ### State.advance -/

@[simp] theorem State.advance_v (s : State) : s.advance.v = s.v := rfl
@[simp] theorem State.advance_idx (s : State) : s.advance.idx = s.idx := rfl
@[simp] theorem State.advance_pc (s : State) : s.advance.pc = s.pc + 2 := rfl
@[simp] theorem State.advance_stack (s : State) : s.advance.stack = s.stack := rfl
@[simp] theorem State.advance_sp (s : State) : s.advance.sp = s.sp := rfl
@[simp] theorem State.advance_dt (s : State) : s.advance.dt = s.dt := rfl
@[simp] theorem State.advance_st (s : State) : s.advance.st = s.st := rfl
@[simp] theorem State.advance_disp (s : State) : s.advance.disp = s.disp := rfl
@[simp] theorem State.advance_keys (s : State) : s.advance.keys = s.keys := rfl
@[simp] theorem State.advance_redraw (s : State) : s.advance.redraw = s.redraw := rfl
@[simp] theorem State.advance_halt (s : State) : s.advance.halt = s.halt := rfl
@[simp] theorem State.advance_mem (s : State) : s.advance.mem = s.mem := rfl
@[simp] theorem State.advance_cfg (s : State) : s.advance.cfg = s.cfg := rfl
@[simp] theorem State.advance_draws (s : State) : s.advance.draws = s.draws := rfl
@[simp] theorem State.advance_reg (s : State) (k : Reg) : s.advance.reg k = s.reg k := rfl
@[simp] theorem State.advance_byteAt (s : State) (i : Nat) : s.advance.byteAt i = s.byteAt i := rfl
@[simp] theorem State.advance_key (s : State) (k : Reg) : s.advance.key k = s.key k := rfl
@[simp] theorem State.advance_pixel (s : State) (c : Fin 64) (r : Fin 32) : s.advance.pixel c r = s.pixel c r := rfl
@[simp] theorem State.advance_stackAt (s : State) (k : Fin 16) : s.advance.stackAt k = s.stackAt k := rfl
@[simp] theorem State.advance_base (s : State) : s.advance.base = s.base := rfl
@[simp] theorem State.advance_pressedKeys (s : State) : s.advance.pressedKeys = s.pressedKeys := rfl

/-! ### State.skipIf -/

@[simp] theorem State.skipIf_v (s : State) (b : Bool) : (s.skipIf b).v = s.v := rfl
@[simp] theorem State.skipIf_idx (s : State) (b : Bool) : (s.skipIf b).idx = s.idx := rfl
@[simp] theorem State.skipIf_pc (s : State) (b : Bool) : (s.skipIf b).pc = s.pc + (if b then 4 else 2) := rfl
@[simp] theorem State.skipIf_stack (s : State) (b : Bool) : (s.skipIf b).stack = s.stack := rfl
@[simp] theorem State.skipIf_sp (s : State) (b : Bool) : (s.skipIf b).sp = s.sp := rfl
@[simp] theorem State.skipIf_dt (s : State) (b : Bool) : (s.skipIf b).dt = s.dt := rfl
@[simp] theorem State.skipIf_st (s : State) (b : Bool) : (s.skipIf b).st = s.st := rfl
@[simp] theorem State.skipIf_disp (s : State) (b : Bool) : (s.skipIf b).disp = s.disp := rfl
@[simp] theorem State.skipIf_keys (s : State) (b : Bool) : (s.skipIf b).keys = s.keys := rfl
@[simp] theorem State.skipIf_redraw (s : State) (b : Bool) : (s.skipIf b).redraw = s.redraw := rfl
@[simp] theorem State.skipIf_halt (s : State) (b : Bool) : (s.skipIf b).halt = s.halt := rfl
@[simp] theorem State.skipIf_mem (s : State) (b : Bool) : (s.skipIf b).mem = s.mem := rfl
@[simp] theorem State.skipIf_cfg (s : State) (b : Bool) : (s.skipIf b).cfg = s.cfg := rfl
@[simp] theorem State.skipIf_draws (s : State) (b : Bool) : (s.skipIf b).draws = s.draws := rfl
@[simp] theorem State.skipIf_reg (s : State) (b : Bool) (k : Reg) : (s.skipIf b).reg k = s.reg k := rfl
@[simp] theorem State.skipIf_byteAt (s : State) (b : Bool) (i : Nat) : (s.skipIf b).byteAt i = s.byteAt i := rfl
@[simp] theorem State.skipIf_key (s : State) (b : Bool) (k : Reg) : (s.skipIf b).key k = s.key k := rfl
@[simp] theorem State.skipIf_pixel (s : State) (b : Bool) (c : Fin 64) (r : Fin 32) : (s.skipIf b).pixel c r = s.pixel c r := rfl
@[simp] theorem State.skipIf_stackAt (s : State) (b : Bool) (k : Fin 16) : (s.skipIf b).stackAt k = s.stackAt k := rfl
@[simp] theorem State.skipIf_base (s : State) (b : Bool) : (s.skipIf b).base = s.base := rfl
@[simp] theorem State.skipIf_pressedKeys (s : State) (b : Bool) : (s.skipIf b).pressedKeys = s.pressedKeys := rfl

/-! ### State.jumpTo -/

@[simp] theorem State.jumpTo_v (s : State) (w : Word) : (s.jumpTo w).v = s.v := rfl
@[simp] theorem State.jumpTo_idx (s : State) (w : Word) : (s.jumpTo w).idx = s.idx := rfl
@[simp] theorem State.jumpTo_pc (s : State) (w : Word) : (s.jumpTo w).pc = w := rfl
@[simp] theorem State.jumpTo_stack (s : State) (w : Word) : (s.jumpTo w).stack = s.stack := rfl
@[simp] theorem State.jumpTo_sp (s : State) (w : Word) : (s.jumpTo w).sp = s.sp := rfl
@[simp] theorem State.jumpTo_dt (s : State) (w : Word) : (s.jumpTo w).dt = s.dt := rfl
@[simp] theorem State.jumpTo_st (s : State) (w : Word) : (s.jumpTo w).st = s.st := rfl
@[simp] theorem State.jumpTo_disp (s : State) (w : Word) : (s.jumpTo w).disp = s.disp := rfl
@[simp] theorem State.jumpTo_keys (s : State) (w : Word) : (s.jumpTo w).keys = s.keys := rfl
@[simp] theorem State.jumpTo_redraw (s : State) (w : Word) : (s.jumpTo w).redraw = s.redraw := rfl
@[simp] theorem State.jumpTo_halt (s : State) (w : Word) : (s.jumpTo w).halt = s.halt := rfl
@[simp] theorem State.jumpTo_mem (s : State) (w : Word) : (s.jumpTo w).mem = s.mem := rfl
@[simp] theorem State.jumpTo_cfg (s : State) (w : Word) : (s.jumpTo w).cfg = s.cfg := rfl
@[simp] theorem State.jumpTo_draws (s : State) (w : Word) : (s.jumpTo w).draws = s.draws := rfl
@[simp] theorem State.jumpTo_reg (s : State) (w : Word) (k : Reg) : (s.jumpTo w).reg k = s.reg k := rfl
@[simp] theorem State.jumpTo_byteAt (s : State) (w : Word) (i : Nat) : (s.jumpTo w).byteAt i = s.byteAt i := rfl
@[simp] theorem State.jumpTo_key (s : State) (w : Word) (k : Reg) : (s.jumpTo w).key k = s.key k := rfl
@[simp] theorem State.jumpTo_pixel (s : State) (w : Word) (c : Fin 64) (r : Fin 32) : (s.jumpTo w).pixel c r = s.pixel c r := rfl
@[simp] theorem State.jumpTo_stackAt (s : State) (w : Word) (k : Fin 16) : (s.jumpTo w).stackAt k = s.stackAt k := rfl
@[simp] theorem State.jumpTo_base (s : State) (w : Word) : (s.jumpTo w).base = s.base := rfl
@[simp] theorem State.jumpTo_pressedKeys (s : State) (w : Word) : (s.jumpTo w).pressedKeys = s.pressedKeys := rfl

/-! ### State.raise -/

@[simp] theorem State.raise_v (s : State) (f : FaultKind) (w : Option Word) (a : Option Nat) : (s.raise f w a).v = s.v := rfl
@[simp] theorem State.raise_idx (s : State) (f : FaultKind) (w : Option Word) (a : Option Nat) : (s.raise f w a).idx = s.idx := rfl
@[simp] theorem State.raise_pc (s : State) (f : FaultKind) (w : Option Word) (a : Option Nat) : (s.raise f w a).pc = s.pc := rfl
@[simp] theorem State.raise_stack (s : State) (f : FaultKind) (w : Option Word) (a : Option Nat) : (s.raise f w a).stack = s.stack := rfl
@[simp] theorem State.raise_sp (s : State) (f : FaultKind) (w : Option Word) (a : Option Nat) : (s.raise f w a).sp = s.sp := rfl
@[simp] theorem State.raise_dt (s : State) (f : FaultKind) (w : Option Word) (a : Option Nat) : (s.raise f w a).dt = s.dt := rfl
@[simp] theorem State.raise_st (s : State) (f : FaultKind) (w : Option Word) (a : Option Nat) : (s.raise f w a).st = s.st := rfl
@[simp] theorem State.raise_disp (s : State) (f : FaultKind) (w : Option Word) (a : Option Nat) : (s.raise f w a).disp = s.disp := rfl
@[simp] theorem State.raise_keys (s : State) (f : FaultKind) (w : Option Word) (a : Option Nat) : (s.raise f w a).keys = s.keys := rfl
@[simp] theorem State.raise_redraw (s : State) (f : FaultKind) (w : Option Word) (a : Option Nat) : (s.raise f w a).redraw = s.redraw := rfl
@[simp] theorem State.raise_halt (s : State) (f : FaultKind) (w : Option Word) (a : Option Nat) : (s.raise f w a).halt = some ⟨f, s.pc, w, a⟩ := rfl
@[simp] theorem State.raise_mem (s : State) (f : FaultKind) (w : Option Word) (a : Option Nat) : (s.raise f w a).mem = s.mem := rfl
@[simp] theorem State.raise_cfg (s : State) (f : FaultKind) (w : Option Word) (a : Option Nat) : (s.raise f w a).cfg = s.cfg := rfl
@[simp] theorem State.raise_draws (s : State) (f : FaultKind) (w : Option Word) (a : Option Nat) : (s.raise f w a).draws = s.draws := rfl
@[simp] theorem State.raise_reg (s : State) (f : FaultKind) (w : Option Word) (a : Option Nat) (k : Reg) : (s.raise f w a).reg k = s.reg k := rfl
@[simp] theorem State.raise_byteAt (s : State) (f : FaultKind) (w : Option Word) (a : Option Nat) (i : Nat) : (s.raise f w a).byteAt i = s.byteAt i := rfl
@[simp] theorem State.raise_key (s : State) (f : FaultKind) (w : Option Word) (a : Option Nat) (k : Reg) : (s.raise f w a).key k = s.key k := rfl
@[simp] theorem State.raise_pixel (s : State) (f : FaultKind) (w : Option Word) (a : Option Nat) (c : Fin 64) (r : Fin 32) : (s.raise f w a).pixel c r = s.pixel c r := rfl
@[simp] theorem State.raise_stackAt (s : State) (f : FaultKind) (w : Option Word) (a : Option Nat) (k : Fin 16) : (s.raise f w a).stackAt k = s.stackAt k := rfl
@[simp] theorem State.raise_base (s : State) (f : FaultKind) (w : Option Word) (a : Option Nat) : (s.raise f w a).base = s.base := rfl
@[simp] theorem State.raise_pressedKeys (s : State) (f : FaultKind) (w : Option Word) (a : Option Nat) : (s.raise f w a).pressedKeys = s.pressedKeys := rfl

/-! ### State.writeFR -/

@[simp] theorem State.writeFR_idx (s : State) (x : Reg) (f : Bool) (r : Byte) : (s.writeFR x f r).idx = s.idx := by unfold State.writeFR; split <;> rfl
@[simp] theorem State.writeFR_pc (s : State) (x : Reg) (f : Bool) (r : Byte) : (s.writeFR x f r).pc = s.pc := by unfold State.writeFR; split <;> rfl
@[simp] theorem State.writeFR_stack (s : State) (x : Reg) (f : Bool) (r : Byte) : (s.writeFR x f r).stack = s.stack := by unfold State.writeFR; split <;> rfl
@[simp] theorem State.writeFR_sp (s : State) (x : Reg) (f : Bool) (r : Byte) : (s.writeFR x f r).sp = s.sp := by unfold State.writeFR; split <;> rfl
@[simp] theorem State.writeFR_dt (s : State) (x : Reg) (f : Bool) (r : Byte) : (s.writeFR x f r).dt = s.dt := by unfold State.writeFR; split <;> rfl
@[simp] theorem State.writeFR_st (s : State) (x : Reg) (f : Bool) (r : Byte) : (s.writeFR x f r).st = s.st := by unfold State.writeFR; split <;> rfl
@[simp] theorem State.writeFR_disp (s : State) (x : Reg) (f : Bool) (r : Byte) : (s.writeFR x f r).disp = s.disp := by unfold State.writeFR; split <;> rfl
@[simp] theorem State.writeFR_keys (s : State) (x : Reg) (f : Bool) (r : Byte) : (s.writeFR x f r).keys = s.keys := by unfold State.writeFR; split <;> rfl
@[simp] theorem State.writeFR_redraw (s : State) (x : Reg) (f : Bool) (r : Byte) : (s.writeFR x f r).redraw = s.redraw := by unfold State.writeFR; split <;> rfl
@[simp] theorem State.writeFR_halt (s : State) (x : Reg) (f : Bool) (r : Byte) : (s.writeFR x f r).halt = s.halt := by unfold State.writeFR; split <;> rfl
@[simp] theorem State.writeFR_mem (s : State) (x : Reg) (f : Bool) (r : Byte) : (s.writeFR x f r).mem = s.mem := by unfold State.writeFR; split <;> rfl
@[simp] theorem State.writeFR_cfg (s : State) (x : Reg) (f : Bool) (r : Byte) : (s.writeFR x f r).cfg = s.cfg := by unfold State.writeFR; split <;> rfl
@[simp] theorem State.writeFR_draws (s : State) (x : Reg) (f : Bool) (r : Byte) : (s.writeFR x f r).draws = s.draws := by unfold State.writeFR; split <;> rfl
@[simp] theorem State.writeFR_byteAt (s : State) (x : Reg) (f : Bool) (r : Byte) (i : Nat) : (s.writeFR x f r).byteAt i = s.byteAt i := by unfold State.writeFR; split <;> rfl
@[simp] theorem State.writeFR_key (s : State) (x : Reg) (f : Bool) (r : Byte) (k : Reg) : (s.writeFR x f r).key k = s.key k := by unfold State.writeFR; split <;> rfl
@[simp] theorem State.writeFR_pixel (s : State) (x : Reg) (f : Bool) (r : Byte) (c : Fin 64) (q : Fin 32) : (s.writeFR x f r).pixel c q = s.pixel c q := by unfold State.writeFR; split <;> rfl
@[simp] theorem State.writeFR_stackAt (s : State) (x : Reg) (f : Bool) (r : Byte) (k : Fin 16) : (s.writeFR x f r).stackAt k = s.stackAt k := by unfold State.writeFR; split <;> rfl
@[simp] theorem State.writeFR_base (s : State) (x : Reg) (f : Bool) (r : Byte) : (s.writeFR x f r).base = s.base := by unfold State.writeFR; split <;> rfl
@[simp] theorem State.writeFR_pressedKeys (s : State) (x : Reg) (f : Bool) (r : Byte) : (s.writeFR x f r).pressedKeys = s.pressedKeys := by unfold State.writeFR; split <;> rfl

/-! ### State.loadRegs -/

@[simp] theorem State.loadRegs_idx (s : State) (x : Reg) : (s.loadRegs x).idx = s.idx := rfl
@[simp] theorem State.loadRegs_pc (s : State) (x : Reg) : (s.loadRegs x).pc = s.pc := rfl
@[simp] theorem State.loadRegs_stack (s : State) (x : Reg) : (s.loadRegs x).stack = s.stack := rfl
@[simp] theorem State.loadRegs_sp (s : State) (x : Reg) : (s.loadRegs x).sp = s.sp := rfl
@[simp] theorem State.loadRegs_dt (s : State) (x : Reg) : (s.loadRegs x).dt = s.dt := rfl
@[simp] theorem State.loadRegs_st (s : State) (x : Reg) : (s.loadRegs x).st = s.st := rfl
@[simp] theorem State.loadRegs_disp (s : State) (x : Reg) : (s.loadRegs x).disp = s.disp := rfl
@[simp] theorem State.loadRegs_keys (s : State) (x : Reg) : (s.loadRegs x).keys = s.keys := rfl
@[simp] theorem State.loadRegs_redraw (s : State) (x : Reg) : (s.loadRegs x).redraw = s.redraw := rfl
@[simp] theorem State.loadRegs_halt (s : State) (x : Reg) : (s.loadRegs x).halt = s.halt := rfl
@[simp] theorem State.loadRegs_mem (s : State) (x : Reg) : (s.loadRegs x).mem = s.mem := rfl
@[simp] theorem State.loadRegs_cfg (s : State) (x : Reg) : (s.loadRegs x).cfg = s.cfg := rfl
@[simp] theorem State.loadRegs_draws (s : State) (x : Reg) : (s.loadRegs x).draws = s.draws := rfl
@[simp] theorem State.loadRegs_byteAt (s : State) (x : Reg) (i : Nat) : (s.loadRegs x).byteAt i = s.byteAt i := rfl
@[simp] theorem State.loadRegs_key (s : State) (x : Reg) (k : Reg) : (s.loadRegs x).key k = s.key k := rfl
@[simp] theorem State.loadRegs_pixel (s : State) (x : Reg) (c : Fin 64) (r : Fin 32) : (s.loadRegs x).pixel c r = s.pixel c r := rfl
@[simp] theorem State.loadRegs_stackAt (s : State) (x : Reg) (k : Fin 16) : (s.loadRegs x).stackAt k = s.stackAt k := rfl
@[simp] theorem State.loadRegs_base (s : State) (x : Reg) : (s.loadRegs x).base = s.base := rfl
@[simp] theorem State.loadRegs_pressedKeys (s : State) (x : Reg) : (s.loadRegs x).pressedKeys = s.pressedKeys := rfl

/-! ### State.storeBytes -/

/-- A store writes the memory and nothing else. -/
theorem State.storeBytes_eq (s : State) (a : Nat) (bs : List Byte) :
    s.storeBytes a bs = { s with mem := (s.storeBytes a bs).mem } := by
  induction bs generalizing s a with
  | nil => rfl
  | cons b bs ih => exact ih (s.setByte a b) (a + 1)

@[simp] theorem State.storeBytes_v (s : State) (a : Nat) (bs : List Byte) : (s.storeBytes a bs).v = s.v := by rw [State.storeBytes_eq]
@[simp] theorem State.storeBytes_idx (s : State) (a : Nat) (bs : List Byte) : (s.storeBytes a bs).idx = s.idx := by rw [State.storeBytes_eq]
@[simp] theorem State.storeBytes_pc (s : State) (a : Nat) (bs : List Byte) : (s.storeBytes a bs).pc = s.pc := by rw [State.storeBytes_eq]
@[simp] theorem State.storeBytes_stack (s : State) (a : Nat) (bs : List Byte) : (s.storeBytes a bs).stack = s.stack := by rw [State.storeBytes_eq]
@[simp] theorem State.storeBytes_sp (s : State) (a : Nat) (bs : List Byte) : (s.storeBytes a bs).sp = s.sp := by rw [State.storeBytes_eq]
@[simp] theorem State.storeBytes_dt (s : State) (a : Nat) (bs : List Byte) : (s.storeBytes a bs).dt = s.dt := by rw [State.storeBytes_eq]
@[simp] theorem State.storeBytes_st (s : State) (a : Nat) (bs : List Byte) : (s.storeBytes a bs).st = s.st := by rw [State.storeBytes_eq]
@[simp] theorem State.storeBytes_disp (s : State) (a : Nat) (bs : List Byte) : (s.storeBytes a bs).disp = s.disp := by rw [State.storeBytes_eq]
@[simp] theorem State.storeBytes_keys (s : State) (a : Nat) (bs : List Byte) : (s.storeBytes a bs).keys = s.keys := by rw [State.storeBytes_eq]
@[simp] theorem State.storeBytes_redraw (s : State) (a : Nat) (bs : List Byte) : (s.storeBytes a bs).redraw = s.redraw := by rw [State.storeBytes_eq]
@[simp] theorem State.storeBytes_halt (s : State) (a : Nat) (bs : List Byte) : (s.storeBytes a bs).halt = s.halt := by rw [State.storeBytes_eq]
@[simp] theorem State.storeBytes_cfg (s : State) (a : Nat) (bs : List Byte) : (s.storeBytes a bs).cfg = s.cfg := by rw [State.storeBytes_eq]
@[simp] theorem State.storeBytes_draws (s : State) (a : Nat) (bs : List Byte) : (s.storeBytes a bs).draws = s.draws := by rw [State.storeBytes_eq]
@[simp] theorem State.storeBytes_reg (s : State) (a : Nat) (bs : List Byte) (k : Reg) : (s.storeBytes a bs).reg k = s.reg k := by rw [State.storeBytes_eq]; rfl
@[simp] theorem State.storeBytes_key (s : State) (a : Nat) (bs : List Byte) (k : Reg) : (s.storeBytes a bs).key k = s.key k := by rw [State.storeBytes_eq]; rfl
@[simp] theorem State.storeBytes_pixel (s : State) (a : Nat) (bs : List Byte) (c : Fin 64) (r : Fin 32) : (s.storeBytes a bs).pixel c r = s.pixel c r := by rw [State.storeBytes_eq]; rfl
@[simp] theorem State.storeBytes_stackAt (s : State) (a : Nat) (bs : List Byte) (k : Fin 16) : (s.storeBytes a bs).stackAt k = s.stackAt k := by rw [State.storeBytes_eq]; rfl
@[simp] theorem State.storeBytes_base (s : State) (a : Nat) (bs : List Byte) : (s.storeBytes a bs).base = s.base := by rw [State.storeBytes_eq]; rfl
@[simp] theorem State.storeBytes_pressedKeys (s : State) (a : Nat) (bs : List Byte) : (s.storeBytes a bs).pressedKeys = s.pressedKeys := by rw [State.storeBytes_eq]; rfl

end Sys2Proof.Machine
end

