-- ==== Sys2Proof/Laws/Memory.lean ====
section
/-! SUPPORT. What reading and writing memory do: a byte written reads back, every other byte stays, and every
memory operation keeps the canonical form `Memory.wf`. -/

namespace Sys2Proof.Machine

/-! ### One byte -/

theorem Memory.read_erase (c : Config) (m : Memory) (a x : Nat) :
    Memory.read c (Memory.erase m a) x = if x = a then resetByte c a else Memory.read c m x := by
  induction m with
  | nil =>
    by_cases hx : x = a
    · subst hx; simp [Memory.erase, Memory.read]
    · simp [Memory.erase, Memory.read, hx]
  | cons p m ih =>
    obtain ⟨k, w⟩ := p
    simp only [Memory.erase] at ih
    by_cases hk : k = a
    · subst hk
      by_cases hx : x = k
      · simpa [Memory.erase, Memory.read, hx] using ih
      · simpa [Memory.erase, Memory.read, hx, Ne.symm hx] using ih
    · by_cases hx : x = a
      · subst hx; simpa [Memory.erase, Memory.read, hk] using ih
      · by_cases hkx : k = x
        · simp [Memory.erase, Memory.read, hkx, hx]
        · simpa [Memory.erase, Memory.read, hk, hkx, hx] using ih

theorem Memory.read_insert (c : Config) (m : Memory) (a : Nat) (b : Byte) (x : Nat) :
    Memory.read c (Memory.insert m a b) x = if x = a then b else Memory.read c m x := by
  induction m with
  | nil =>
    by_cases hx : x = a
    · simp [Memory.insert, Memory.read, hx]
    · simp [Memory.insert, Memory.read, hx, Ne.symm hx]
  | cons p m ih =>
    obtain ⟨k, w⟩ := p
    by_cases hk : k < a
    · rw [Memory.insert, if_pos hk, Memory.read, Memory.read, ih]
      by_cases hkx : k = x
      · rw [if_pos hkx, if_pos hkx, if_neg (by omega)]
      · rw [if_neg hkx, if_neg hkx]
    · rw [Memory.insert, if_neg hk, Memory.read]
      by_cases hx : x = a
      · rw [if_pos hx.symm, if_pos hx]
      · rw [if_neg (Ne.symm hx), if_neg hx]

/-- A byte written reads back, and a write affects only its own byte (20_memory.md R49, R50). -/
theorem Memory.read_write (c : Config) (m : Memory) (a : Nat) (b : Byte) (x : Nat) :
    Memory.read c (Memory.write c m a b) x = if x = a then b else Memory.read c m x := by
  by_cases hb : b = resetByte c a
  · subst hb; rw [Memory.write, if_pos rfl, Memory.read_erase]
  · rw [Memory.write, if_neg hb, Memory.read_insert, Memory.read_erase]
    by_cases hx : x = a
    · rw [if_pos hx, if_pos hx]
    · rw [if_neg hx, if_neg hx, if_neg hx]

@[simp] theorem State.byteAt_setByte (s : State) (a : Nat) (b : Byte) (x : Nat) :
    (s.setByte a b).byteAt x = if x = a then b else s.byteAt x :=
  Memory.read_write s.cfg s.mem a b x

/-! ### Several bytes -/

/-- A store of bytes from `base` on: each byte at its place, every other address as before. -/
theorem State.byteAt_storeBytes (s : State) (base : Nat) (bs : List Byte) (x : Nat) :
    (s.storeBytes base bs).byteAt x =
      if h : base ≤ x ∧ x < base + bs.length then bs[x - base]'(by omega) else s.byteAt x := by
  induction bs generalizing s base with
  | nil => simp [State.storeBytes]
  | cons b bs ih =>
    rw [State.storeBytes, ih]
    simp only [State.byteAt_setByte, List.length_cons]
    by_cases hx : x = base
    · subst hx
      rw [dif_neg (by omega), if_pos rfl, dif_pos (by omega)]
      simp
    · by_cases h : base + 1 ≤ x ∧ x < base + 1 + bs.length
      · rw [dif_pos h, dif_pos (by omega)]
        have : x - base = (x - (base + 1)) + 1 := by omega
        simp only [this, List.getElem_cons_succ]
      · rw [dif_neg h, if_neg hx, dif_neg (by omega)]

theorem State.byteAt_storeBytes_of_out (s : State) (base : Nat) (bs : List Byte) (x : Nat)
    (h : x < base ∨ base + bs.length ≤ x) : (s.storeBytes base bs).byteAt x = s.byteAt x := by
  rw [State.byteAt_storeBytes, dif_neg (by omega)]

theorem State.byteAt_storeBytes_of_in (s : State) (base : Nat) (bs : List Byte) (k : Nat) (h : k < bs.length) :
    (s.storeBytes base bs).byteAt (base + k) = bs[k] := by
  rw [State.byteAt_storeBytes, dif_pos (by omega)]
  simp

@[simp] theorem State.length_loadBytes (s : State) (base n : Nat) : (s.loadBytes base n).length = n := by
  simp [State.loadBytes]

@[simp] theorem State.getElem_loadBytes (s : State) (base n k : Nat) (h : k < (s.loadBytes base n).length) :
    (s.loadBytes base n)[k] = s.byteAt (base + k) := by
  simp [State.loadBytes]

/-! ### The canonical form -/

theorem Memory.wf_iff (c : Config) (m : Memory) :
    Memory.wf c m = true ↔
      m.Pairwise (fun p q => p.1 < q.1) ∧ ∀ p ∈ m, p.1 < 0x1000 ∧ p.2 ≠ resetByte c p.1 := by
  simp [Memory.wf]

theorem Memory.wf_erase (c : Config) (m : Memory) (a : Nat) (h : Memory.wf c m = true) :
    Memory.wf c (Memory.erase m a) = true := by
  rw [Memory.wf_iff] at h ⊢
  exact ⟨h.1.filter _, fun p hp => h.2 p (List.mem_of_mem_filter hp)⟩

theorem Memory.mem_insert (m : Memory) (a : Nat) (b : Byte) (p : Host.Cell) :
    p ∈ Memory.insert m a b ↔ p = (a, b) ∨ p ∈ m := by
  induction m with
  | nil => simp [Memory.insert]
  | cons q m ih =>
    obtain ⟨k, w⟩ := q
    by_cases hk : k < a
    · simp only [Memory.insert, hk, if_true, List.mem_cons, ih]; tauto
    · simp [Memory.insert, hk]

theorem Memory.sorted_insert (m : Memory) (a : Nat) (b : Byte) (h : m.Pairwise fun p q => p.1 < q.1)
    (ha : ∀ p ∈ m, p.1 ≠ a) : (Memory.insert m a b).Pairwise fun p q => p.1 < q.1 := by
  induction m with
  | nil => simp [Memory.insert]
  | cons q m ih =>
    obtain ⟨k, w⟩ := q
    obtain ⟨h1, h2⟩ := List.pairwise_cons.mp h
    have hka : k ≠ a := ha (k, w) (by simp)
    have ham : ∀ p ∈ m, p.1 ≠ a := fun p hp => ha p (by simp [hp])
    by_cases hk : k < a
    · rw [Memory.insert, if_pos hk, List.pairwise_cons]
      refine ⟨fun p hp => ?_, ih h2 ham⟩
      rcases (Memory.mem_insert m a b p).mp hp with rfl | hp
      · exact hk
      · exact h1 p hp
    · rw [Memory.insert, if_neg hk, List.pairwise_cons]
      refine ⟨fun p hp => ?_, h⟩
      rcases List.mem_cons.mp hp with rfl | hp
      · show a < k; omega
      · have := h1 p hp; simp at this; show a < p.1; omega

/-- A write inside the address space keeps the canonical form. -/
theorem Memory.wf_write (c : Config) (m : Memory) (a : Nat) (b : Byte) (ha : a < 0x1000)
    (h : Memory.wf c m = true) : Memory.wf c (Memory.write c m a b) = true := by
  by_cases hb : b = resetByte c a
  · rw [Memory.write, if_pos hb]; exact Memory.wf_erase c m a h
  · rw [Memory.write, if_neg hb, Memory.wf_iff]
    have he := (Memory.wf_iff c _).mp (Memory.wf_erase c m a h)
    refine ⟨Memory.sorted_insert _ a b he.1 ?_, fun p hp => ?_⟩
    · intro p hp
      simpa using (List.mem_filter.mp hp).2
    · rcases (Memory.mem_insert _ a b p).mp hp with rfl | hp
      · exact ⟨ha, hb⟩
      · exact he.2 p hp

/-- A store inside the address space keeps the canonical form. -/
theorem State.wf_storeBytes (s : State) (base : Nat) (bs : List Byte) (hb : base + bs.length ≤ 0x1000)
    (h : Memory.wf s.cfg s.mem = true) :
    Memory.wf (s.storeBytes base bs).cfg (s.storeBytes base bs).mem = true := by
  induction bs generalizing s base with
  | nil => exact h
  | cons b bs ih =>
    simp only [List.length_cons] at hb
    exact ih (s.setByte base b) (base + 1) (by omega) (Memory.wf_write s.cfg s.mem base b (by omega) h)

theorem Memory.wf_nil (c : Config) : Memory.wf c [] = true := by simp [Memory.wf]

/-- The reset memory is canonical, under any parameters. -/
theorem State.wf_resetWith (c : Config) (d : Nat) :
    Memory.wf (State.resetWith c d).cfg (State.resetWith c d).mem = true := Memory.wf_nil c

end Sys2Proof.Machine
end

