-- ==== Sys2Proof/Laws/Ops.lean ====
section
/-! SUPPORT. One lemma for each shared operation over registers, the stack, the range check, the draws and the
fetch: everything it can do, so that no later proof unfolds it. -/

namespace Sys2Proof.Machine

/-! ### Registers -/

@[simp] theorem State.reg_setReg (s : State) (x : Reg) (b : Byte) (k : Reg) :
    (s.setReg x b).reg k = if k = x then b else s.reg k := by
  simp only [State.reg, State.setReg, Vector.getElem_set, Fin.ext_iff, eq_comm]

/-- `WriteFR` (R88): which register ends with which value, in both orders. -/
@[simp] theorem State.reg_writeFR (s : State) (x : Reg) (f : Bool) (r : Byte) (k : Reg) :
    (s.writeFR x f r).reg k =
      match s.cfg.flagWriteOrder with
      | .flagThenResult => if k = x then r else if k = flagReg then flagByte f else s.reg k
      | .resultThenFlag => if k = flagReg then flagByte f else if k = x then r else s.reg k := by
  cases h : s.cfg.flagWriteOrder <;> simp [State.writeFR, h]

/-- Fx65's transfer: registers up to x from memory, the others kept. -/
@[simp] theorem State.reg_loadRegs (s : State) (x k : Reg) :
    (s.loadRegs x).reg k = if k ≤ x then s.byteAt (s.base + k.val) else s.reg k := by
  simp [State.loadRegs, State.reg]

@[simp] theorem State.length_regsUpTo (s : State) (x : Reg) : (s.regsUpTo x).length = x.val + 1 := by
  simp [State.regsUpTo]

@[simp] theorem State.getElem_regsUpTo (s : State) (x : Reg) (k : Nat) (h : k < (s.regsUpTo x).length) :
    (s.regsUpTo x)[k] = s.reg ⟨k, by rw [State.length_regsUpTo] at h; omega⟩ := by
  simp [State.regsUpTo, State.reg]

@[simp] theorem State.stackAt_setStack (s : State) (e : Vector Word 16) (n : Fin 17) (k : Fin 16) :
    (s.setStack e n).stackAt k = e[k.val] := rfl

/-! ### What is read everywhere is known -/

theorem State.v_ext {s t : State} (h : ∀ k, t.reg k = s.reg k) : t.v = s.v :=
  Vector.ext fun k hk => h ⟨k, hk⟩

theorem State.keys_ext {s t : State} (h : ∀ k, t.key k = s.key k) : t.keys = s.keys :=
  Vector.ext fun k hk => h ⟨k, hk⟩

theorem State.stack_ext {s t : State} (h : ∀ k, t.stackAt k = s.stackAt k) : t.stack = s.stack :=
  Vector.ext fun k hk => h ⟨k, hk⟩

/-! ### The stack (R26) -/

theorem State.push_of_lt (s : State) (w : Word) (h : s.sp.val < 16) :
    s.push w = some (s.setStack (s.stack.set s.sp.val w) ⟨s.sp.val + 1, by omega⟩) := by
  simp [State.push, h]

theorem State.push_of_full (s : State) (w : Word) (h : s.sp.val = 16) : s.push w = none := by
  simp [State.push, h]

/-- Everything `Push` can do. -/
theorem State.push_eq_some {s t : State} {w : Word} (h : s.push w = some t) :
    ∃ hlt : s.sp.val < 16, t = s.setStack (s.stack.set s.sp.val w) ⟨s.sp.val + 1, by omega⟩ := by
  by_cases hlt : s.sp.val < 16
  · rw [State.push_of_lt s w hlt] at h
    exact ⟨hlt, (Option.some.inj h).symm⟩
  · simp [State.push, hlt] at h

theorem State.pop_of_pos (s : State) (h : 0 < s.sp.val) :
    s.pop = some (s.stackAt ⟨s.sp.val - 1, by omega⟩, s.setStack s.stack ⟨s.sp.val - 1, by omega⟩) := by
  simp [State.pop, h, State.stackAt]

theorem State.pop_of_empty (s : State) (h : s.sp.val = 0) : s.pop = none := by
  simp [State.pop, h]

/-- Everything `Pop` can do. -/
theorem State.pop_eq_some {s t : State} {w : Word} (h : s.pop = some (w, t)) :
    ∃ hpos : 0 < s.sp.val, w = s.stackAt ⟨s.sp.val - 1, by omega⟩ ∧
      t = s.setStack s.stack ⟨s.sp.val - 1, by omega⟩ := by
  by_cases hpos : 0 < s.sp.val
  · rw [State.pop_of_pos s hpos] at h
    obtain ⟨rfl, rfl⟩ := Prod.mk.inj (Option.some.inj h)
    exact ⟨hpos, rfl, rfl⟩
  · simp [State.pop, hpos] at h

/-! ### The range check (R43, R44) -/

/-- The check passes exactly when there is no access or the last address is inside. -/
theorem rangeFault_eq_none_iff (base n : Nat) : rangeFault base n = none ↔ n = 0 ∨ base + n ≤ 0x1000 := by
  simp only [rangeFault, List.find?_eq_none, List.mem_map, List.mem_range, decide_eq_true_eq]
  constructor
  · intro h
    by_cases hn : n = 0
    · exact .inl hn
    · have := h (base + (n - 1)) ⟨n - 1, by omega, rfl⟩
      omega
  · rintro h _ ⟨k, hk, rfl⟩
    omega

/-- Where it fails, the address is the smallest that fails: `max(I, 0x1000)` (R107, R108). -/
theorem rangeFault_of_out (base n : Nat) (hn : 0 < n) (h : 0x1000 < base + n) :
    rangeFault base n = some (max base 0x1000) := by
  rw [rangeFault, List.find?_eq_some_iff_getElem]
  refine ⟨by simp, max base 0x1000 - base, by simp; omega, by simp, ?_⟩
  intro j hj
  simp
  omega

theorem withRange_of_ok (i : Instr) (base n : Nat) (s go : State) (h : n = 0 ∨ base + n ≤ 0x1000) :
    withRange i base n s go = .next go := by
  rw [withRange, (rangeFault_eq_none_iff base n).mpr h]

theorem withRange_of_out (i : Instr) (base n : Nat) (s go : State) (hn : 0 < n) (h : 0x1000 < base + n) :
    withRange i base n s go =
      .next (s.raise .addressOutOfRange (some (encode i)) (some (max base 0x1000))) := by
  rw [withRange, rangeFault_of_out base n hn h]

/-- Everything `withRange` can do. -/
theorem withRange_cases (i : Instr) (base n : Nat) (s go : State) :
    ((n = 0 ∨ base + n ≤ 0x1000) ∧ withRange i base n s go = .next go) ∨
    ((0 < n ∧ 0x1000 < base + n) ∧ withRange i base n s go =
      .next (s.raise .addressOutOfRange (some (encode i)) (some (max base 0x1000)))) := by
  by_cases h : n = 0 ∨ base + n ≤ 0x1000
  · exact .inl ⟨h, withRange_of_ok i base n s go h⟩
  · exact .inr ⟨by omega, withRange_of_out i base n s go (by omega) (by omega)⟩

/-! ### Keys and draws (R16, R110, R113) -/

theorem State.mem_pressedKeys (s : State) (k : Reg) : k ∈ s.pressedKeys ↔ s.key k = true := by
  simp [State.pressedKeys]

/-- Everything `drawKey` can do: none exactly when no key is pressed, otherwise a pressed key. -/
theorem State.drawKey_eq_none_iff (s : State) : s.drawKey = none ↔ ∀ k, s.key k = false := by
  have hp : s.pressedKeys = [] ↔ ∀ k, s.key k = false := by
    rw [List.eq_nil_iff_forall_not_mem]
    simp [State.mem_pressedKeys]
  rw [← hp]
  unfold State.drawKey
  split <;> simp_all

theorem State.drawKey_eq_some {s t : State} {k : Reg} (h : s.drawKey = some (k, t)) :
    s.key k = true ∧ t = s.countDraw := by
  unfold State.drawKey at h
  split at h
  · simp at h
  · rename_i a as hp
    obtain ⟨rfl, rfl⟩ := Prod.mk.inj (Option.some.inj h)
    refine ⟨?_, rfl⟩
    rw [← State.mem_pressedKeys, hp]
    exact List.getElem_mem _

/-- The key a key skip tests. -/
theorem State.keyAt_of_lt (s : State) (x : Reg) (h : (s.reg x).toNat < 16) :
    s.keyAt x = some (s.key ⟨(s.reg x).toNat, h⟩) := by
  simp [State.keyAt, h]

theorem State.keyAt_of_ge (s : State) (x : Reg) (h : 16 ≤ (s.reg x).toNat) : s.keyAt x = none := by
  simp [State.keyAt, Nat.not_lt.mpr h]

/-! ### Fetch (R46) -/

theorem State.fetch_of_odd (s : State) (h : s.pc.toNat % 2 = 1) : s.fetch = .error (.misalignedFetch, none) := by
  simp [State.fetch, h]

theorem State.fetch_of_high (s : State) (h : s.pc.toNat % 2 = 0) (hr : 0x1000 ≤ s.pc.toNat) :
    s.fetch = .error (.addressOutOfRange, some s.pc.toNat) := by
  rw [State.fetch, if_neg (by omega), if_pos (by omega)]

theorem State.fetch_of_ok (s : State) (h : s.pc.toNat % 2 = 0) (hr : s.pc.toNat < 0x1000) :
    s.fetch = .ok (wordOfBytes (s.byteAt s.pc.toNat) (s.byteAt (s.pc.toNat + 1))) := by
  rw [State.fetch, if_neg (by omega), if_neg (by omega)]

/-- The word of two bytes is the number `hi * 256 + lo` (00_scope.md R9). -/
theorem wordOfBytes_toNat (hi lo : Byte) : (wordOfBytes hi lo).toNat = hi.toNat * 256 + lo.toNat := by
  have := lo.isLt
  rw [wordOfBytes, BitVec.toNat_append, Nat.shiftLeft_eq, Nat.mul_comm, ← Nat.two_pow_add_eq_or_of_lt (by omega)]

end Sys2Proof.Machine
end

