-- ==== Sys2Proof/Laws/Display.lean ====
section
/-! SUPPORT. What the pixel operations and one plotted sprite bit do. -/

namespace Sys2Proof.Machine

@[simp] theorem Display.pixel_setPixel (d : Display) (c c' : Fin 64) (r r' : Fin 32) (b : Bool) :
    Display.pixel (Display.setPixel d c r b) c' r' = if c' = c ∧ r' = r then b else Display.pixel d c' r' := by
  obtain ⟨c, hc⟩ := c
  obtain ⟨c', hc'⟩ := c'
  obtain ⟨r, hr⟩ := r
  obtain ⟨r', hr'⟩ := r'
  simp only [Display.pixel, Display.setPixel, Vector.getElem_set, Fin.mk.injEq]
  by_cases h : c = c'
  · subst h
    by_cases h' : r = r'
    · subst h'; simp
    · simp [h', Ne.symm h']
  · simp [h, Ne.symm h]

@[simp] theorem Display.pixel_blank (c : Fin 64) (r : Fin 32) : Display.pixel Display.blank c r = false := by
  simp [Display.pixel, Display.blank]

@[simp] theorem State.pixel_setDisplay (s : State) (d : Display) (c : Fin 64) (r : Fin 32) :
    (s.setDisplay d).pixel c r = Display.pixel d c r := rfl

theorem Display.ext {d e : Display} (h : ∀ c r, Display.pixel d c r = Display.pixel e c r) : d = e :=
  Vector.ext fun c hc => Vector.ext fun r hr => h ⟨c, hc⟩ ⟨r, hr⟩

/-- A plotted bit inverts its pixel and no other. -/
@[simp] theorem plotBit_pixel (acc : Display × Bool) (c c' : Fin 64) (r r' : Fin 32) :
    Display.pixel (plotBit acc c r).1 c' r' =
      if c' = c ∧ r' = r then !Display.pixel acc.1 c r else Display.pixel acc.1 c' r' := by
  simp [plotBit]

/-- A plotted bit collides exactly when its pixel was 1. -/
@[simp] theorem plotBit_collision (acc : Display × Bool) (c : Fin 64) (r : Fin 32) :
    (plotBit acc c r).2 = (acc.2 || Display.pixel acc.1 c r) := rfl

@[simp] theorem spriteCol_val (ox : Byte) (j : Nat) : (spriteCol ox j).val = (ox.toNat + j) % 64 := rfl

@[simp] theorem spriteRow_val (oy : Byte) (i : Nat) : (spriteRow oy i).val = (oy.toNat + i) % 32 := rfl

/-- The columns of the eight bits of a byte are distinct (40_display.md R74). -/
theorem spriteCol_inj (ox : Byte) {j j' : Nat} (hj : j < 8) (hj' : j' < 8) (h : spriteCol ox j = spriteCol ox j') :
    j = j' := by
  have := congrArg Fin.val h
  simp at this
  omega

/-- The rows of up to 15 sprite bytes are distinct (40_display.md R74). -/
theorem spriteRow_inj (oy : Byte) {i i' : Nat} (hd : i < i' + 15) (hd' : i' < i + 15)
    (h : spriteRow oy i = spriteRow oy i') : i = i' := by
  have := congrArg Fin.val h
  simp at this
  omega

/-- The first m bits of a sprite byte on row r: what `plotByte` has done after them. -/
theorem plotBits_spec (ox b : Byte) (r : Fin 32) (acc : Display × Bool) (m : Nat) (hm : m ≤ 8) :
    (∀ c' r',
      (r' = r ∧ (∃ j, j < m ∧ b.getLsbD (7 - j) = true ∧ c' = spriteCol ox j) →
        Display.pixel ((List.range m).foldl (fun acc j =>
          if b.getLsbD (7 - j) then plotBit acc (spriteCol ox j) r else acc) acc).1 c' r' =
            !Display.pixel acc.1 c' r') ∧
      (¬ (r' = r ∧ ∃ j, j < m ∧ b.getLsbD (7 - j) = true ∧ c' = spriteCol ox j) →
        Display.pixel ((List.range m).foldl (fun acc j =>
          if b.getLsbD (7 - j) then plotBit acc (spriteCol ox j) r else acc) acc).1 c' r' =
            Display.pixel acc.1 c' r')) ∧
    (((List.range m).foldl (fun acc j =>
        if b.getLsbD (7 - j) then plotBit acc (spriteCol ox j) r else acc) acc).2 = true ↔
      acc.2 = true ∨ ∃ j, j < m ∧ b.getLsbD (7 - j) = true ∧ Display.pixel acc.1 (spriteCol ox j) r = true) := by
  induction m with
  | zero => simp
  | succ m ih =>
    obtain ⟨ih1, ih2⟩ := ih (by omega)
    rw [List.range_succ, List.foldl_append, List.foldl_cons, List.foldl_nil]
    generalize (List.range m).foldl (fun acc j =>
      if b.getLsbD (7 - j) then plotBit acc (spriteCol ox j) r else acc) acc = now at ih1 ih2 ⊢
    have same : Display.pixel now.1 (spriteCol ox m) r = Display.pixel acc.1 (spriteCol ox m) r :=
      (ih1 _ _).2 fun ⟨_, j, hj, _, h⟩ => by have := spriteCol_inj ox (by omega) (by omega) h; omega
    have split : ∀ P : Nat → Prop, (∃ j, j < m + 1 ∧ P j) ↔ (∃ j, j < m ∧ P j) ∨ P m := fun P =>
      ⟨fun ⟨j, hj, h⟩ => by
        by_cases e : j = m
        · exact .inr (e ▸ h)
        · exact .inl ⟨j, by omega, h⟩,
       fun h => h.elim (fun ⟨j, hj, h⟩ => ⟨j, by omega, h⟩) fun h => ⟨m, by omega, h⟩⟩
    simp only [split]
    by_cases hb : b.getLsbD (7 - m) = true
    · rw [if_pos hb]
      refine ⟨fun c' r' => ?_, by simp only [plotBit_collision, Bool.or_eq_true, same, ih2, hb, true_and, or_assoc]⟩
      by_cases h : c' = spriteCol ox m ∧ r' = r
      · obtain ⟨rfl, rfl⟩ := h
        simp [hb, same]
      · rw [plotBit_pixel, if_neg h]
        refine ⟨fun ⟨hr, hj⟩ => (ih1 c' r').1 ⟨hr, hj.resolve_right fun hc => h ⟨hc.2, hr⟩⟩, fun hn => ?_⟩
        exact (ih1 c' r').2 fun ⟨hr, hj⟩ => hn ⟨hr, .inl hj⟩
    · simp only [hb, if_false, Bool.false_eq_true, false_and, or_false]
      exact ⟨ih1, ih2⟩

/-- A sprite byte plotted on row r: bit 7 - j inverts the pixel at column offset j, no other pixel changes, and
there is a collision exactly where a set bit meets a 1. -/
theorem plotByte_spec (ox b : Byte) (r : Fin 32) (acc : Display × Bool) :
    (∀ c' r',
      (r' = r ∧ (∃ j, j < 8 ∧ b.getLsbD (7 - j) = true ∧ c' = spriteCol ox j) →
        Display.pixel (plotByte ox r b acc).1 c' r' = !Display.pixel acc.1 c' r') ∧
      (¬ (r' = r ∧ ∃ j, j < 8 ∧ b.getLsbD (7 - j) = true ∧ c' = spriteCol ox j) →
        Display.pixel (plotByte ox r b acc).1 c' r' = Display.pixel acc.1 c' r')) ∧
    ((plotByte ox r b acc).2 = true ↔
      acc.2 = true ∨ ∃ j, j < 8 ∧ b.getLsbD (7 - j) = true ∧ Display.pixel acc.1 (spriteCol ox j) r = true) :=
  plotBits_spec ox b r acc 8 (Nat.le_refl 8)

end Sys2Proof.Machine
end

