-- ==== Sys2Proof/Laws/Exec.lean ====
section
/-! SUPPORT. What the execution of an instruction and a step can do, said once: it completes with the halt status
as it was, or it takes the machine's one trap entry, the halt, from the state it began in. -/

namespace Sys2Proof.Machine

/-! ### The meanings that branch, one lemma each: every result, with when it comes -/

theorem execRet_cases (s : State) :
    (s.sp.val = 0 ∧ execRet s = .next (s.raise .stackUnderflow (some (encode .ret)) none)) ∨
    (∃ h : 0 < s.sp.val, execRet s =
      .next ((s.setStack s.stack ⟨s.sp.val - 1, by omega⟩).jumpTo (s.stackAt ⟨s.sp.val - 1, by omega⟩))) := by
  by_cases h : 0 < s.sp.val
  · exact .inr ⟨h, by rw [execRet, State.pop_of_pos s h]⟩
  · exact .inl ⟨by omega, by rw [execRet, State.pop_of_empty s (by omega)]⟩

theorem execCall_cases (nnn : Addr12) (s : State) :
    (s.sp.val = 16 ∧ execCall nnn s = .next (s.raise .stackOverflow (some (encode (.call nnn))) none)) ∨
    (∃ h : s.sp.val < 16, execCall nnn s =
      .next ((s.setStack (s.stack.set s.sp.val (s.pc + 2)) ⟨s.sp.val + 1, by omega⟩).jumpTo (zext16 nnn))) := by
  by_cases h : s.sp.val < 16
  · exact .inr ⟨h, by rw [execCall, State.push_of_lt s _ h]⟩
  · exact .inl ⟨by omega, by rw [execCall, State.push_of_full s _ (by omega)]⟩

theorem execSkp_cases (x : Reg) (s : State) :
    (16 ≤ (s.reg x).toNat ∧ execSkp x s =
      .next (s.raise .keyIndexOutOfRange (some (encode (.skp x))) (some (s.reg x).toNat))) ∨
    (∃ h : (s.reg x).toNat < 16, execSkp x s = .next (s.skipIf (s.key ⟨(s.reg x).toNat, h⟩))) := by
  by_cases h : (s.reg x).toNat < 16
  · exact .inr ⟨h, by rw [execSkp, State.keyAt_of_lt s x h]⟩
  · exact .inl ⟨by omega, by rw [execSkp, State.keyAt_of_ge s x (by omega)]⟩

theorem execSknp_cases (x : Reg) (s : State) :
    (16 ≤ (s.reg x).toNat ∧ execSknp x s =
      .next (s.raise .keyIndexOutOfRange (some (encode (.sknp x))) (some (s.reg x).toNat))) ∨
    (∃ h : (s.reg x).toNat < 16, execSknp x s = .next (s.skipIf !s.key ⟨(s.reg x).toNat, h⟩)) := by
  by_cases h : (s.reg x).toNat < 16
  · exact .inr ⟨h, by rw [execSknp, State.keyAt_of_lt s x h]⟩
  · exact .inl ⟨by omega, by rw [execSknp, State.keyAt_of_ge s x (by omega)]⟩

theorem execLdVk_cases (x : Reg) (s : State) :
    ((∀ k, s.key k = false) ∧ execLdVk x s = .next s) ∨
    (∃ k, s.key k = true ∧ execLdVk x s = .next ((s.countDraw.setReg x (BitVec.ofNat 8 k.val)).advance)) := by
  cases h : s.drawKey with
  | none => exact .inl ⟨(State.drawKey_eq_none_iff s).mp h, by rw [execLdVk, h]⟩
  | some p =>
    obtain ⟨k, t⟩ := p
    obtain ⟨hk, rfl⟩ := State.drawKey_eq_some h
    exact .inr ⟨k, hk, by rw [execLdVk, h]⟩

theorem execDrw_cases (x y : Reg) (n : Nat) (s : State) :
    ((n = 0 ∨ s.base + n ≤ 0x1000) ∧ execDrw x y n s = .next (s.drawSprite x y n).advance) ∨
    ((0 < n ∧ 0x1000 < s.base + n) ∧ execDrw x y n s =
      .next (s.raise .addressOutOfRange (some (encode (.drw x y n))) (some (max s.base 0x1000)))) :=
  withRange_cases _ _ _ _ _

theorem execLdB_cases (x : Reg) (s : State) :
    (s.base + 3 ≤ 0x1000 ∧
      execLdB x s = .next (s.storeBytes s.base (decimalDigits (s.reg x))).advance) ∨
    (0x1000 < s.base + 3 ∧ execLdB x s =
      .next (s.raise .addressOutOfRange (some (encode (.ldB x))) (some (max s.base 0x1000)))) :=
  (withRange_cases _ _ _ _ _).imp (And.imp_left fun h => by omega) (And.imp_left fun h => h.2)

theorem execStRegs_cases (x : Reg) (s : State) :
    (s.base + x.val < 0x1000 ∧ execStRegs x s = .next (s.storeBytes s.base (s.regsUpTo x)).advance) ∨
    (0x1000 ≤ s.base + x.val ∧ execStRegs x s =
      .next (s.raise .addressOutOfRange (some (encode (.stRegs x))) (some (max s.base 0x1000)))) :=
  (withRange_cases _ _ _ _ _).imp (And.imp_left fun h => by omega) (And.imp_left fun h => by omega)

theorem execLdRegs_cases (x : Reg) (s : State) :
    (s.base + x.val < 0x1000 ∧ execLdRegs x s = .next (s.loadRegs x).advance) ∨
    (0x1000 ≤ s.base + x.val ∧ execLdRegs x s =
      .next (s.raise .addressOutOfRange (some (encode (.ldRegs x))) (some (max s.base 0x1000)))) :=
  (withRange_cases _ _ _ _ _).imp (And.imp_left fun h => by omega) (And.imp_left fun h => by omega)

/-! ### Every instruction -/

/-- A result that completes or raises, from the state `s`. -/
def CompletesOrRaises (s : State) (r : Result) : Prop :=
  (∃ t, r = .next t ∧ t.halt = s.halt) ∨ (∃ k w a, r = .next (s.raise k w a))

theorem completes {s t : State} {r : Result} (hr : r = .next t) (h : t.halt = s.halt) : CompletesOrRaises s r :=
  .inl ⟨t, hr, h⟩

theorem raises {s : State} {r : Result} {k : FaultKind} {w : Option Word} {a : Option Nat}
    (hr : r = .next (s.raise k w a)) : CompletesOrRaises s r := .inr ⟨k, w, a, hr⟩

/-- No instruction is refused and none faults without a next state: each completes, or takes the halt. -/
theorem exec_completesOrRaises (i : Instr) (s : State) : CompletesOrRaises s (exec i s) := by
  cases i
  case ret => rcases execRet_cases s with ⟨_, h⟩ | ⟨_, h⟩ <;> [exact raises h; exact completes h (by simp)]
  case call nnn =>
    rcases execCall_cases nnn s with ⟨_, h⟩ | ⟨_, h⟩ <;> [exact raises h; exact completes h (by simp)]
  case skp x => rcases execSkp_cases x s with ⟨_, h⟩ | ⟨_, h⟩ <;> [exact raises h; exact completes h (by simp)]
  case sknp x =>
    rcases execSknp_cases x s with ⟨_, h⟩ | ⟨_, h⟩ <;> [exact raises h; exact completes h (by simp)]
  case ldVk x =>
    rcases execLdVk_cases x s with ⟨_, h⟩ | ⟨_, _, h⟩ <;> [exact completes h rfl; exact completes h (by simp)]
  case drw x y n =>
    rcases execDrw_cases x y n s with ⟨_, h⟩ | ⟨_, h⟩ <;>
      [exact completes h (by simp [State.drawSprite]); exact raises h]
  case ldB x => rcases execLdB_cases x s with ⟨_, h⟩ | ⟨_, h⟩ <;> [exact completes h (by simp); exact raises h]
  case stRegs x =>
    rcases execStRegs_cases x s with ⟨_, h⟩ | ⟨_, h⟩ <;> [exact completes h (by simp); exact raises h]
  case ldRegs x =>
    rcases execLdRegs_cases x s with ⟨_, h⟩ | ⟨_, h⟩ <;> [exact completes h (by simp); exact raises h]
  all_goals exact completes rfl (by simp)

/-- Every way an instruction can end: it takes the halt, or it completes with the state of its rule. -/
inductive Executes (s : State) : Instr → State → Prop where
  | raised (i : Instr) (k : FaultKind) (w : Option Word) (a : Option Nat) : Executes s i (s.raise k w a)
  | cls : Executes s .cls (s.setDisplay Display.blank).advance
  | jp (nnn : Addr12) : Executes s (.jp nnn) (s.jumpTo (zext16 nnn))
  | seK (x : Reg) (kk : Byte) : Executes s (.seK x kk) (s.skipIf (s.reg x == kk))
  | sneK (x : Reg) (kk : Byte) : Executes s (.sneK x kk) (s.skipIf (s.reg x != kk))
  | seR (x : Reg) (y : Reg) : Executes s (.seR x y) (s.skipIf (s.reg x == s.reg y))
  | ldK (x : Reg) (kk : Byte) : Executes s (.ldK x kk) (s.setReg x kk).advance
  | addK (x : Reg) (kk : Byte) : Executes s (.addK x kk) (s.setReg x (s.reg x + kk)).advance
  | ldR (x : Reg) (y : Reg) : Executes s (.ldR x y) (s.setReg x (s.reg y)).advance
  | or (x : Reg) (y : Reg) : Executes s (.or x y) (s.setReg x (s.reg x ||| s.reg y)).advance
  | and (x : Reg) (y : Reg) : Executes s (.and x y) (s.setReg x (s.reg x &&& s.reg y)).advance
  | xor (x : Reg) (y : Reg) : Executes s (.xor x y) (s.setReg x (s.reg x ^^^ s.reg y)).advance
  | addR (x : Reg) (y : Reg) : Executes s (.addR x y) (s.writeFR x (carryFlag (s.reg x) (s.reg y)) (s.reg x + s.reg y)).advance
  | sub (x : Reg) (y : Reg) : Executes s (.sub x y) (s.writeFR x (greaterFlag (s.reg x) (s.reg y)) (s.reg x - s.reg y)).advance
  | shr (x : Reg) (y : Reg) : Executes s (.shr x y) (s.writeFR x (lowBit (s.reg x)) (s.reg x >>> 1)).advance
  | subn (x : Reg) (y : Reg) : Executes s (.subn x y) (s.writeFR x (greaterFlag (s.reg y) (s.reg x)) (s.reg y - s.reg x)).advance
  | shl (x : Reg) (y : Reg) : Executes s (.shl x y) (s.writeFR x (highBit (s.reg x)) (s.reg x <<< 1)).advance
  | sneR (x : Reg) (y : Reg) : Executes s (.sneR x y) (s.skipIf (s.reg x != s.reg y))
  | ldI (nnn : Addr12) : Executes s (.ldI nnn) (s.setIdx (zext16 nnn)).advance
  | jpV0 (nnn : Addr12) : Executes s (.jpV0 nnn) (s.jumpTo (zext16 nnn + byteToWord (s.reg 0)))
  | rnd (x : Reg) (kk : Byte) : Executes s (.rnd x kk) (s.countDraw.setReg x (Config.rndByte s.draws &&& kk)).advance
  | ldVdt (x : Reg) : Executes s (.ldVdt x) (s.setReg x s.dt).advance
  | ldDtv (x : Reg) : Executes s (.ldDtv x) (s.setDt (s.reg x)).advance
  | ldStv (x : Reg) : Executes s (.ldStv x) (s.setSt (s.reg x)).advance
  | addI (x : Reg) : Executes s (.addI x) (s.setIdx (s.idx + byteToWord (s.reg x))).advance
  | ldF (x : Reg) : Executes s (.ldF x) (s.setIdx (glyphAddr s.cfg (s.reg x))).advance
  | ret (h : 0 < s.sp.val) : Executes s .ret
      ((s.setStack s.stack ⟨s.sp.val - 1, by omega⟩).jumpTo (s.stackAt ⟨s.sp.val - 1, by omega⟩))
  | call (nnn : Addr12) (h : s.sp.val < 16) : Executes s (.call nnn)
      ((s.setStack (s.stack.set s.sp.val (s.pc + 2)) ⟨s.sp.val + 1, by omega⟩).jumpTo (zext16 nnn))
  | skp (x : Reg) (h : (s.reg x).toNat < 16) : Executes s (.skp x) (s.skipIf (s.key ⟨(s.reg x).toNat, h⟩))
  | sknp (x : Reg) (h : (s.reg x).toNat < 16) : Executes s (.sknp x) (s.skipIf !s.key ⟨(s.reg x).toNat, h⟩)
  | waits (x : Reg) (h : ∀ k, s.key k = false) : Executes s (.ldVk x) s
  | ldVk (x k : Reg) (h : s.key k = true) :
      Executes s (.ldVk x) (s.countDraw.setReg x (BitVec.ofNat 8 k.val)).advance
  | drw (x y : Reg) (n : Nat) (h : n = 0 ∨ s.base + n ≤ 0x1000) : Executes s (.drw x y n) (s.drawSprite x y n).advance
  | ldB (x : Reg) (h : s.base + 3 ≤ 0x1000) :
      Executes s (.ldB x) (s.storeBytes s.base (decimalDigits (s.reg x))).advance
  | stRegs (x : Reg) (h : s.base + x.val < 0x1000) :
      Executes s (.stRegs x) (s.storeBytes s.base (s.regsUpTo x)).advance
  | ldRegs (x : Reg) (h : s.base + x.val < 0x1000) : Executes s (.ldRegs x) (s.loadRegs x).advance

/-- The inversion of `exec`: proofs about a next state take `cases` of this and never unfold a meaning. -/
theorem exec_executes {i : Instr} {s t : State} (he : exec i s = .next t) : Executes s i t := by
  cases i
  case ret =>
    rcases execRet_cases s with ⟨_, h2⟩ | ⟨h, h2⟩ <;> cases h2.symm.trans he
    · exact .raised _ _ _ _
    · exact .ret h
  case call nnn =>
    rcases execCall_cases nnn s with ⟨_, h2⟩ | ⟨h, h2⟩ <;> cases h2.symm.trans he
    · exact .raised _ _ _ _
    · exact .call nnn h
  case skp x =>
    rcases execSkp_cases x s with ⟨_, h2⟩ | ⟨h, h2⟩ <;> cases h2.symm.trans he
    · exact .raised _ _ _ _
    · exact .skp x h
  case sknp x =>
    rcases execSknp_cases x s with ⟨_, h2⟩ | ⟨h, h2⟩ <;> cases h2.symm.trans he
    · exact .raised _ _ _ _
    · exact .sknp x h
  case ldVk x =>
    rcases execLdVk_cases x s with ⟨h, h2⟩ | ⟨k, h, h2⟩ <;> cases h2.symm.trans he
    · exact .waits x h
    · exact .ldVk x k h
  case drw x y n =>
    rcases execDrw_cases x y n s with ⟨h, h2⟩ | ⟨_, h2⟩ <;> cases h2.symm.trans he
    · exact .drw x y n h
    · exact .raised _ _ _ _
  case ldB x =>
    rcases execLdB_cases x s with ⟨h, h2⟩ | ⟨_, h2⟩ <;> cases h2.symm.trans he
    · exact .ldB x h
    · exact .raised _ _ _ _
  case stRegs x =>
    rcases execStRegs_cases x s with ⟨h, h2⟩ | ⟨_, h2⟩ <;> cases h2.symm.trans he
    · exact .stRegs x h
    · exact .raised _ _ _ _
  case ldRegs x =>
    rcases execLdRegs_cases x s with ⟨h, h2⟩ | ⟨_, h2⟩ <;> cases h2.symm.trans he
    · exact .ldRegs x h
    · exact .raised _ _ _ _
  all_goals (cases he; constructor)

/-- What a step can do: answer the record of a halted machine, or, of a running one, take a fetch or decode fault,
or execute the instruction at pc (30_encoding.md R67). -/
theorem step_cases (s : State) :
    (∃ r, s.halt = some r ∧ step s = .fault (.halted r)) ∨
    (s.halt = none ∧ ∃ k a, s.fetch = .error (k, a) ∧ step s = .next (s.raise k none a)) ∨
    (s.halt = none ∧ ∃ w, s.fetch = .ok w ∧ decode w = .unknown ∧
      step s = .next (s.raise .unknownOpcode (some w) none)) ∨
    (s.halt = none ∧ ∃ w i, s.fetch = .ok w ∧ decode w = .known i ∧ step s = exec i s) := by
  cases hh : s.halt with
  | some r => exact .inl ⟨r, rfl, by simp [step, hh]⟩
  | none =>
    refine .inr ?_
    cases hf : s.fetch with
    | error e => exact .inl ⟨rfl, e.1, e.2, rfl, by simp [step, hh, hf]⟩
    | ok w =>
      refine .inr ?_
      cases hd : decode w with
      | unknown => exact .inl ⟨rfl, w, rfl, hd, by simp [step, hh, hf, hd]⟩
      | known i => exact .inr ⟨rfl, w, i, rfl, hd, by simp [step, hh, hf, hd]⟩

end Sys2Proof.Machine
end

