-- ==== Sys2Proof/Laws/PerInstr.lean ====
section
/-! SUPPORT. What holds of every instruction as syntax, one lemma per constructor. -/

namespace Sys2Proof.Laws.TableRow

/-- The word of the instruction lies on the row of spec/opcode_table.json that carries its mnemonic. -/
def Statement (i : Instr) : Prop :=
  ∃ r ∈ opcodeTable, r.mnemonic = i.mnemonic ∧ encode i &&& r.mask = r.pattern

/-- A row whose mask keeps the top nibble (layouts NNN, XKK and Dxyn). -/
theorem of_F000 {w p : Word} (h : 0x1000 * (w.toNat / 0x1000) = p.toNat) : w &&& 0xF000#16 = p :=
  BitVec.eq_of_toNat_eq (by rw [and_F000_toNat, h])

/-- A row whose mask keeps the top nibble and `n` (families 5, 8, 9). -/
theorem of_F00F {w p : Word} (h : 0x1000 * (w.toNat / 0x1000) + w.toNat % 0x10 = p.toNat) :
    w &&& 0xF00F#16 = p :=
  BitVec.eq_of_toNat_eq (by rw [and_F00F_toNat, h])

/-- A row whose mask keeps the top nibble and `kk` (families E, F). -/
theorem of_F0FF {w p : Word} (h : 0x1000 * (w.toNat / 0x1000) + w.toNat % 0x100 = p.toNat) :
    w &&& 0xF0FF#16 = p :=
  BitVec.eq_of_toNat_eq (by rw [and_F0FF_toNat, h])

theorem nnn_row (op : BitVec 4) (nnn : Addr12) (p : Word) (hp : 0x1000 * op.toNat = p.toNat) :
    wordNNN op nnn &&& 0xF000#16 = p :=
  of_F000 (by rw [wordNNN_toNat, ← hp]; have := nnn.isLt; omega)

theorem xkk_row (op : BitVec 4) (x : Reg) (kk : Byte) (p : Word) (hp : 0x1000 * op.toNat = p.toNat) :
    wordXKK op x kk &&& 0xF000#16 = p :=
  of_F000 (by rw [wordXKK_toNat, ← hp]; have := kk.isLt; omega)

theorem xsub_row (op : BitVec 4) (x : Reg) (kk : Byte) (p : Word) (hp : 0x1000 * op.toNat + kk.toNat = p.toNat) :
    wordXKK op x kk &&& 0xF0FF#16 = p :=
  of_F0FF (by rw [wordXKK_toNat, ← hp]; have := kk.isLt; omega)

theorem xyn_row (op : BitVec 4) (x y : Reg) (n : BitVec 4) (p : Word) (hp : 0x1000 * op.toNat + n.toNat = p.toNat) :
    wordXYN op x y n &&& 0xF00F#16 = p :=
  of_F00F (by rw [wordXYN_toNat, ← hp]; have := n.isLt; omega)

theorem drw_row (op : BitVec 4) (x y : Reg) (n : BitVec 4) (p : Word) (hp : 0x1000 * op.toNat = p.toNat) :
    wordXYN op x y n &&& 0xF000#16 = p :=
  of_F000 (by rw [wordXYN_toNat, ← hp]; have := n.isLt; omega)

theorem cls : Statement (.cls) :=
  ⟨⟨"00E0", 0x00E0#16, 0xFFFF#16⟩, by decide, rfl, by decide⟩

theorem ret : Statement (.ret) :=
  ⟨⟨"00EE", 0x00EE#16, 0xFFFF#16⟩, by decide, rfl, by decide⟩

theorem jp (nnn : Addr12) : Statement (.jp nnn) :=
  ⟨⟨"1nnn", 0x1000#16, 0xF000#16⟩, by decide, rfl, nnn_row _ _ _ (by decide)⟩

theorem call (nnn : Addr12) : Statement (.call nnn) :=
  ⟨⟨"2nnn", 0x2000#16, 0xF000#16⟩, by decide, rfl, nnn_row _ _ _ (by decide)⟩

theorem seK (x : Reg) (kk : Byte) : Statement (.seK x kk) :=
  ⟨⟨"3xkk", 0x3000#16, 0xF000#16⟩, by decide, rfl, xkk_row _ _ _ _ (by decide)⟩

theorem sneK (x : Reg) (kk : Byte) : Statement (.sneK x kk) :=
  ⟨⟨"4xkk", 0x4000#16, 0xF000#16⟩, by decide, rfl, xkk_row _ _ _ _ (by decide)⟩

theorem seR (x y : Reg) : Statement (.seR x y) :=
  ⟨⟨"5xy0", 0x5000#16, 0xF00F#16⟩, by decide, rfl, xyn_row _ _ _ _ _ (by decide)⟩

theorem ldK (x : Reg) (kk : Byte) : Statement (.ldK x kk) :=
  ⟨⟨"6xkk", 0x6000#16, 0xF000#16⟩, by decide, rfl, xkk_row _ _ _ _ (by decide)⟩

theorem addK (x : Reg) (kk : Byte) : Statement (.addK x kk) :=
  ⟨⟨"7xkk", 0x7000#16, 0xF000#16⟩, by decide, rfl, xkk_row _ _ _ _ (by decide)⟩

theorem ldR (x y : Reg) : Statement (.ldR x y) :=
  ⟨⟨"8xy0", 0x8000#16, 0xF00F#16⟩, by decide, rfl, xyn_row _ _ _ _ _ (by decide)⟩

theorem or (x y : Reg) : Statement (.or x y) :=
  ⟨⟨"8xy1", 0x8001#16, 0xF00F#16⟩, by decide, rfl, xyn_row _ _ _ _ _ (by decide)⟩

theorem and (x y : Reg) : Statement (.and x y) :=
  ⟨⟨"8xy2", 0x8002#16, 0xF00F#16⟩, by decide, rfl, xyn_row _ _ _ _ _ (by decide)⟩

theorem xor (x y : Reg) : Statement (.xor x y) :=
  ⟨⟨"8xy3", 0x8003#16, 0xF00F#16⟩, by decide, rfl, xyn_row _ _ _ _ _ (by decide)⟩

theorem addR (x y : Reg) : Statement (.addR x y) :=
  ⟨⟨"8xy4", 0x8004#16, 0xF00F#16⟩, by decide, rfl, xyn_row _ _ _ _ _ (by decide)⟩

theorem sub (x y : Reg) : Statement (.sub x y) :=
  ⟨⟨"8xy5", 0x8005#16, 0xF00F#16⟩, by decide, rfl, xyn_row _ _ _ _ _ (by decide)⟩

theorem shr (x y : Reg) : Statement (.shr x y) :=
  ⟨⟨"8xy6", 0x8006#16, 0xF00F#16⟩, by decide, rfl, xyn_row _ _ _ _ _ (by decide)⟩

theorem subn (x y : Reg) : Statement (.subn x y) :=
  ⟨⟨"8xy7", 0x8007#16, 0xF00F#16⟩, by decide, rfl, xyn_row _ _ _ _ _ (by decide)⟩

theorem shl (x y : Reg) : Statement (.shl x y) :=
  ⟨⟨"8xyE", 0x800E#16, 0xF00F#16⟩, by decide, rfl, xyn_row _ _ _ _ _ (by decide)⟩

theorem sneR (x y : Reg) : Statement (.sneR x y) :=
  ⟨⟨"9xy0", 0x9000#16, 0xF00F#16⟩, by decide, rfl, xyn_row _ _ _ _ _ (by decide)⟩

theorem ldI (nnn : Addr12) : Statement (.ldI nnn) :=
  ⟨⟨"Annn", 0xA000#16, 0xF000#16⟩, by decide, rfl, nnn_row _ _ _ (by decide)⟩

theorem jpV0 (nnn : Addr12) : Statement (.jpV0 nnn) :=
  ⟨⟨"Bnnn", 0xB000#16, 0xF000#16⟩, by decide, rfl, nnn_row _ _ _ (by decide)⟩

theorem rnd (x : Reg) (kk : Byte) : Statement (.rnd x kk) :=
  ⟨⟨"Cxkk", 0xC000#16, 0xF000#16⟩, by decide, rfl, xkk_row _ _ _ _ (by decide)⟩

theorem drw (x y : Reg) (n : Nat) : Statement (.drw x y n) :=
  ⟨⟨"Dxyn", 0xD000#16, 0xF000#16⟩, by decide, rfl, drw_row _ _ _ _ _ (by decide)⟩

theorem skp (x : Reg) : Statement (.skp x) :=
  ⟨⟨"Ex9E", 0xE09E#16, 0xF0FF#16⟩, by decide, rfl, xsub_row _ _ _ _ (by decide)⟩

theorem sknp (x : Reg) : Statement (.sknp x) :=
  ⟨⟨"ExA1", 0xE0A1#16, 0xF0FF#16⟩, by decide, rfl, xsub_row _ _ _ _ (by decide)⟩

theorem ldVdt (x : Reg) : Statement (.ldVdt x) :=
  ⟨⟨"Fx07", 0xF007#16, 0xF0FF#16⟩, by decide, rfl, xsub_row _ _ _ _ (by decide)⟩

theorem ldVk (x : Reg) : Statement (.ldVk x) :=
  ⟨⟨"Fx0A", 0xF00A#16, 0xF0FF#16⟩, by decide, rfl, xsub_row _ _ _ _ (by decide)⟩

theorem ldDtv (x : Reg) : Statement (.ldDtv x) :=
  ⟨⟨"Fx15", 0xF015#16, 0xF0FF#16⟩, by decide, rfl, xsub_row _ _ _ _ (by decide)⟩

theorem ldStv (x : Reg) : Statement (.ldStv x) :=
  ⟨⟨"Fx18", 0xF018#16, 0xF0FF#16⟩, by decide, rfl, xsub_row _ _ _ _ (by decide)⟩

theorem addI (x : Reg) : Statement (.addI x) :=
  ⟨⟨"Fx1E", 0xF01E#16, 0xF0FF#16⟩, by decide, rfl, xsub_row _ _ _ _ (by decide)⟩

theorem ldF (x : Reg) : Statement (.ldF x) :=
  ⟨⟨"Fx29", 0xF029#16, 0xF0FF#16⟩, by decide, rfl, xsub_row _ _ _ _ (by decide)⟩

theorem ldB (x : Reg) : Statement (.ldB x) :=
  ⟨⟨"Fx33", 0xF033#16, 0xF0FF#16⟩, by decide, rfl, xsub_row _ _ _ _ (by decide)⟩

theorem stRegs (x : Reg) : Statement (.stRegs x) :=
  ⟨⟨"Fx55", 0xF055#16, 0xF0FF#16⟩, by decide, rfl, xsub_row _ _ _ _ (by decide)⟩

theorem ldRegs (x : Reg) : Statement (.ldRegs x) :=
  ⟨⟨"Fx65", 0xF065#16, 0xF0FF#16⟩, by decide, rfl, xsub_row _ _ _ _ (by decide)⟩

end Sys2Proof.Laws.TableRow
end

