-- ==== Sys2Proof/Laws/Transactions.lean ====
section
/-! SUPPORT. What a `step()` transaction does to the state, said once, and the one induction over schedules: what
holds after reset and what every transaction keeps holds of every reachable state. -/

namespace Sys2Proof.Machine

/-- The `step()` transaction leaves the state as it is, or in the next state that `step` answers. -/
theorem stepTransaction_state (s : State) :
    s.stepTransaction.1 = s ∨ step s = .next s.stepTransaction.1 := by
  unfold State.stepTransaction
  cases hs : step s with
  | fault r => cases r; exact .inl rfl
  | refused r => exact .inl rfl
  | next t =>
    refine .inr ?_
    cases ht : t.halt <;> simp [ht]

/-- What every transaction keeps, every schedule keeps. -/
theorem runSchedule_keeps {P : State → Prop} (keep : ∀ tr s, P s → P (transact tr s).1) (ts : List Transaction)
    {s : State} (h : P s) : P (runSchedule ts s) := by
  induction ts generalizing s with
  | nil => exact h
  | cons tr ts ih => exact ih (keep tr s h)

/-- What holds after reset, under any parameters, and what every transaction keeps holds of every reachable state. -/
theorem State.Reachable.holds {P : State → Prop} (start : ∀ c d, P (State.resetWith c d))
    (keep : ∀ tr s, P s → P (transact tr s).1) {s : State} (h : s.Reachable) : P s := by
  obtain ⟨c, d, ts, rfl⟩ := h
  exact runSchedule_keeps keep ts (start c d)

end Sys2Proof.Machine
end

