-- ==== Sys2Proof/Tests/Slice0.lean ====
section
/-! SUPPORT. Tests: what the checks refuse, words written out bit by bit from the encodings of 30_encoding.md, one
step of each instruction on the vectors of 95_test_vectors.md, and a witness for the hypotheses of each statement. -/

namespace Sys2Proof.Tests

open Sys2Proof.Machine Sys2Proof.Claims

/-! ### WellFormed (30_encoding.md R58) -/

theorem test_wf_refuses_sprite_height_16 : Instr.wf (.drw 0 0 16) = false := by decide

theorem test_wf_admits_sprite_height_15 : Instr.wf (.drw 15 15 15) = true := by decide

/-! ### Decode: op, x, y and n, nibble by nibble (R57, R60) -/

theorem test_decode_family_0 : decode 0b0000_0000_1110_0000#16 = .known .cls ∧
    decode 0b0000_0000_1110_1110#16 = .known .ret := by decide

theorem test_decode_nnn : decode 0b0001_1010_1011_1100#16 = .known (.jp 0xABC) ∧
    decode 0b0010_0011_0000_0001#16 = .known (.call 0x301) ∧
    decode 0b1010_0011_0000_0010#16 = .known (.ldI 0x302) ∧
    decode 0b1011_1111_1111_1110#16 = .known (.jpV0 0xFFE) := by decide

theorem test_decode_xkk : decode 0b0011_0011_0100_0010#16 = .known (.seK 3 0x42) ∧
    decode 0b0100_0011_1000_0001#16 = .known (.sneK 3 0x81) ∧
    decode 0b0110_1010_0111_1011#16 = .known (.ldK 10 0x7B) ∧
    decode 0b0111_0001_1111_1111#16 = .known (.addK 1 0xFF) ∧
    decode 0b1100_0011_0000_1111#16 = .known (.rnd 3 0x0F) := by decide

theorem test_decode_families_5_and_9 : decode 0b0101_0001_0010_0000#16 = .known (.seR 1 2) ∧
    decode 0b1001_0001_0010_0000#16 = .known (.sneR 1 2) := by decide

theorem test_decode_family_8 : decode 0b1000_0001_0010_0000#16 = .known (.ldR 1 2) ∧
    decode 0b1000_0001_0010_0001#16 = .known (.or 1 2) ∧ decode 0b1000_0001_0010_0010#16 = .known (.and 1 2) ∧
    decode 0b1000_0001_0010_0011#16 = .known (.xor 1 2) ∧ decode 0b1000_0001_0010_0100#16 = .known (.addR 1 2) ∧
    decode 0b1000_0001_0010_0101#16 = .known (.sub 1 2) ∧ decode 0b1000_0001_0010_0110#16 = .known (.shr 1 2) ∧
    decode 0b1000_0001_0010_0111#16 = .known (.subn 1 2) ∧
    decode 0b1000_0001_0010_1110#16 = .known (.shl 1 2) := by decide

theorem test_decode_family_D : decode 0b1101_0001_0010_1111#16 = .known (.drw 1 2 15) := by decide

theorem test_decode_family_E : decode 0b1110_0001_1001_1110#16 = .known (.skp 1) ∧
    decode 0b1110_1110_1010_0001#16 = .known (.sknp 14) := by decide

theorem test_decode_family_F : decode 0b1111_0011_0000_0111#16 = .known (.ldVdt 3) ∧
    decode 0b1111_0101_0000_1010#16 = .known (.ldVk 5) ∧ decode 0b1111_0100_0001_0101#16 = .known (.ldDtv 4) ∧
    decode 0b1111_0100_0001_1000#16 = .known (.ldStv 4) ∧ decode 0b1111_0000_0001_1110#16 = .known (.addI 0) ∧
    decode 0b1111_0010_0010_1001#16 = .known (.ldF 2) ∧ decode 0b1111_1010_0011_0011#16 = .known (.ldB 10) ∧
    decode 0b1111_0010_0101_0101#16 = .known (.stRegs 2) ∧
    decode 0b1111_1111_0110_0101#16 = .known (.ldRegs 15) := by decide

/-- 95_test_vectors.md L2.1. -/
theorem test_decode_illegal : [0x0000#16, 0x00E1#16, 0x00FF#16, 0x0123#16, 0x0FFF#16, 0x5231#16, 0x500F#16, 0x8008#16,
    0x800D#16, 0x800F#16, 0x9121#16, 0xE09F#16, 0xE000#16, 0xF000#16, 0xF0FF#16, 0xFFFF#16].all
      (fun w => decode w == .unknown) = true := by decide

theorem test_decodeBytes_high_byte_first : decodeBytes [0x12#8, 0x04#8, 0x99#8] = .ok (.jp 0x204, [0x99#8]) := by rfl

theorem test_decodeBytes_rejects : decodeBytes [0x52#8, 0x31#8] = .error (.unknownOpcode 0x5231) ∧
    decodeBytes [0x12#8] = .error .truncated ∧ decodeBytes [] = .error .truncated := ⟨rfl, rfl, rfl⟩

theorem test_decodeTableWord : decodeTableWord 16 0xD125 = some (.drw 1 2 5) ∧ decodeTableWord 16 0x5231 = none := by
  decide

/-- Every row of the table has a word on it: the hypotheses of `RowDecodes` are met. -/
theorem test_every_row_has_a_word : opcodeTable.all (fun r => r.pattern &&& r.mask == r.pattern) = true := by decide

/-! ### One step of each instruction -/

/-- The state after reset with the instruction word at pc = 0x200. -/
def start (w : Nat) : State := State.reset.withFetchWord 16 w

/-- What the next state of a step shows, if it answers one. -/
def see {α : Type} (f : State → α) (r : Result) : Option α :=
  match r with
  | .next t => some (f t)
  | .fault _ => none
  | .refused _ => none

/-- The halt status after a step that answers a next state. -/
def haltAfter (s : State) : Option (Option FaultRecord) := see State.halt (step s)

/-! Display: 95_test_vectors.md L2.3. -/

theorem test_cls : see (fun t => (t.pixel 5 7, t.redraw, t.pc))
    (step ((start 0x00E0).setDisplay (Display.setPixel Display.blank 5 7 true))) =
      some (false, true, 0x202) := by decide

/-- V0 = 62, V1 = 31, sprite C0 81: both edges wrap. -/
theorem test_drw_wraps : see (fun t => (t.pixel 62 31, t.pixel 63 31, t.pixel 62 0, t.pixel 5 0, t.pixel 0 31, t.reg 15))
    (step (((((start 0xD012).setIdx 0x300).setByte 0x300 0xC0).setByte 0x301 0x81).setReg 0 62 |>.setReg 1 31)) =
      some (true, true, true, true, false, 0) := by decide

/-- VF = 0x10, V0 = 0, sprite 80, DF01: the origin column is the old VF, and the pixel there was 1. -/
theorem test_drw_origin_from_old_VF : see (fun t => (t.pixel 16 0, t.reg 15, t.redraw))
    (step (((((start 0xDF01).setIdx 0x300).setByte 0x300 0x80).setReg 15 0x10).setDisplay
      (Display.setPixel Display.blank 16 0 true))) = some (false, 1, true) := by decide

/-! Control transfer: L2.4. -/

theorem test_ret : see (fun t => (t.pc, t.sp.val))
    (step ((start 0x00EE).setStack (Vector.replicate 16 0x206) 1)) = some (0x206, 0) := by decide

theorem test_ret_underflow : haltAfter (start 0x00EE) = some (some ⟨.stackUnderflow, 0x200, some 0x00EE, none⟩) := by
  decide

theorem test_jp : see State.pc (step (start 0x1ABC)) = some 0xABC := by decide

theorem test_call : see (fun t => (t.pc, t.sp.val, t.stackAt 0)) (step (start 0x2300)) = some (0x300, 1, 0x202) := by
  decide

theorem test_call_overflow : haltAfter ((start 0x2300).setStack (Vector.replicate 16 0x202) 16) =
    some (some ⟨.stackOverflow, 0x200, some 0x2300, none⟩) := by decide

theorem test_seK : see State.pc (step ((start 0x3342).setReg 3 0x42)) = some 0x204 ∧
    see State.pc (step ((start 0x3343).setReg 3 0x42)) = some 0x202 := by decide

theorem test_sneK : see State.pc (step ((start 0x4342).setReg 3 0x42)) = some 0x202 ∧
    see State.pc (step ((start 0x4300).setReg 3 0x42)) = some 0x204 := by decide

theorem test_seR : see State.pc (step (((start 0x5120).setReg 1 7).setReg 2 7)) = some 0x204 ∧
    see State.pc (step (((start 0x5120).setReg 1 7).setReg 2 8)) = some 0x202 := by decide

theorem test_sneR : see State.pc (step (((start 0x9120).setReg 1 7).setReg 2 7)) = some 0x202 ∧
    see State.pc (step (((start 0x9120).setReg 1 7).setReg 2 8)) = some 0x204 := by decide

theorem test_jpV0_not_masked : see State.pc (step ((start 0xBFFF).setReg 0 0xFF)) = some 0x10FE := by decide

/-! Arithmetic and logic: L2.5. V0 and V1 hold the operands, VF is seeded with 0x55. -/

/-- V0, VF and pc after `w` with V0 = a, V1 = b, VF = 0x55. -/
def alu (w : Nat) (a b : Byte) : Option (Byte × Byte × Word) :=
  see (fun t => (t.reg 0, t.reg 15, t.pc)) (step ((((start w).setReg 15 0x55).setReg 0 a).setReg 1 b))

theorem test_ldK : alu 0x6042 0 0 = some (0x42, 0x55, 0x202) := by decide

theorem test_addK_wraps_without_flag : alu 0x7001 0xFF 0 = some (0, 0x55, 0x202) := by decide

theorem test_ldR : alu 0x8010 0x12 0x34 = some (0x34, 0x55, 0x202) := by decide

theorem test_or : alu 0x8011 0xF0 0x3C = some (0xFC, 0x55, 0x202) := by decide

theorem test_and : alu 0x8012 0xF0 0x3C = some (0x30, 0x55, 0x202) := by decide

theorem test_xor : alu 0x8013 0xF0 0x3C = some (0xCC, 0x55, 0x202) := by decide

theorem test_addR : alu 0x8014 0x80 0x80 = some (0, 1, 0x202) ∧ alu 0x8014 0x7F 0x01 = some (0x80, 0, 0x202) := by
  decide

theorem test_sub : alu 0x8015 5 5 = some (0, 0, 0x202) ∧ alu 0x8015 2 1 = some (1, 1, 0x202) ∧
    alu 0x8015 1 2 = some (0xFF, 0, 0x202) := by decide

theorem test_shr_ignores_y : alu 0x8016 0x04 0xFF = some (0x02, 0, 0x202) ∧ alu 0x8006 0x03 0 = some (0x01, 1, 0x202) := by
  decide

theorem test_subn : alu 0x8017 2 5 = some (3, 1, 0x202) ∧ alu 0x8017 5 2 = some (0xFD, 0, 0x202) ∧
    alu 0x8017 5 5 = some (0, 0, 0x202) := by decide

theorem test_shl : alu 0x800E 0x41 0 = some (0x82, 0, 0x202) ∧ alu 0x800E 0x81 0 = some (0x02, 1, 0x202) := by decide

/-- C300 with any byte drawn. -/
theorem test_rnd_of_mask_0 : see (fun t => (t.reg 3, t.pc)) (step (start 0xC300)) = some (0, 0x202) := by
  have h : step (start 0xC300) = .next (((start 0xC300).countDraw.setReg 3 (Config.rndByte 0 &&& 0)).advance) := rfl
  rw [h, show Config.rndByte 0 &&& (0 : Byte) = 0 from BitVec.and_zero]
  decide

/-- VF after `w` with VF = f and V1 = b under the order `o`: the x = 15 table of L2.5. -/
def flagDest (o : FlagWriteOrder) (w : Nat) (f b : Byte) : Option Byte :=
  see (fun t => t.reg 15)
    (step { ((start w).setReg 15 f).setReg 1 b with cfg := { defaultConfig with flagWriteOrder := o } })

theorem test_VF_keeps_the_result : flagDest .flagThenResult 0x8FF4 0x80 0 = some 0x00 ∧
    flagDest .flagThenResult 0x8F15 0x05 0x03 = some 0x02 ∧ flagDest .flagThenResult 0x8F06 0x02 0 = some 0x01 ∧
    flagDest .flagThenResult 0x8F17 0x03 0x05 = some 0x02 ∧ flagDest .flagThenResult 0x8F0E 0x81 0 = some 0x02 := by
  decide

theorem test_VF_keeps_the_flag : flagDest .resultThenFlag 0x8FF4 0x80 0 = some 0x01 ∧
    flagDest .resultThenFlag 0x8F15 0x05 0x03 = some 0x01 ∧ flagDest .resultThenFlag 0x8F06 0x02 0 = some 0x00 ∧
    flagDest .resultThenFlag 0x8F17 0x03 0x05 = some 0x01 ∧ flagDest .resultThenFlag 0x8F0E 0x81 0 = some 0x01 := by
  decide

/-! Index and memory: L2.6. -/

theorem test_ldI : see (fun t => (t.idx, t.pc)) (step (start 0xA300)) = some (0x300, 0x202) := by decide

theorem test_addI_wraps : see (fun t => (t.idx, t.reg 15)) (step (((start 0xF01E).setIdx 0xFFFF).setReg 0 2)) =
    some (0x0001, 0) := by decide

theorem test_ldF : see State.idx (step ((start 0xF029).setReg 0 0x0A)) = some 0x082 ∧
    see State.idx (step ((start 0xF029).setReg 0 0xFF)) = some 0x54B := by decide

theorem test_ldB : see (fun t => (t.byteAt 0xFFD, t.byteAt 0xFFE, t.byteAt 0xFFF, t.idx))
    (step (((start 0xF033).setIdx 0xFFD).setReg 0 0xAA)) = some (1, 7, 0, 0xFFD) := by decide

theorem test_ldB_out_of_range : haltAfter ((start 0xF033).setIdx 0xFFE) =
    some (some ⟨.addressOutOfRange, 0x200, some 0xF033, some 0x1000⟩) := by decide

theorem test_stRegs : see (fun t => (t.byteAt 0x400, t.byteAt 0x401, t.byteAt 0x402, t.byteAt 0x403, t.idx))
    (step (((((start 0xF255).setIdx 0x400).setReg 0 1).setReg 1 2).setReg 2 3 |>.setReg 3 4)) =
      some (1, 2, 3, 0, 0x400) := by decide

theorem test_stRegs_out_of_range : see (fun t => (t.byteAt 0xFFF, t.halt))
    (step (((start 0xF155).setIdx 0xFFF).setReg 0 9)) =
      some (0, some ⟨.addressOutOfRange, 0x200, some 0xF155, some 0x1000⟩) ∧
    haltAfter ((start 0xF055).setIdx 0x1005) =
      some (some ⟨.addressOutOfRange, 0x200, some 0xF055, some 0x1005⟩) := by decide

theorem test_ldRegs : see (fun t => (t.reg 0, t.reg 1, t.reg 2, t.reg 3, t.idx))
    (step (((((start 0xF265).setIdx 0x300).setByte 0x300 1).setByte 0x301 2).setByte 0x302 3 |>.setReg 3 9)) =
      some (1, 2, 3, 9, 0x300) := by decide

theorem test_ldRegs_out_of_range : see (fun t => (t.reg 0, t.halt)) (step ((start 0xF165).setIdx 0xFFF)) =
    some (0, some ⟨.addressOutOfRange, 0x200, some 0xF165, some 0x1000⟩) := by decide

/-! Keys and timers: L2.7. -/

/-- The state with key k pressed. -/
def press (s : State) (k : Nat) : State := (s.setKey k true).1

theorem test_skp : see State.pc (step (press ((start 0xE19E).setReg 1 5) 5)) = some 0x204 ∧
    see State.pc (step ((start 0xE19E).setReg 1 5)) = some 0x202 := by decide

theorem test_sknp : see State.pc (step (press ((start 0xE1A1).setReg 1 5) 5)) = some 0x202 ∧
    see State.pc (step ((start 0xE1A1).setReg 1 5)) = some 0x204 := by decide

theorem test_key_index_out_of_range : haltAfter ((start 0xE19E).setReg 1 0x10) =
      some (some ⟨.keyIndexOutOfRange, 0x200, some 0xE19E, some 0x10⟩) ∧
    haltAfter ((start 0xE1A1).setReg 1 0x10) =
      some (some ⟨.keyIndexOutOfRange, 0x200, some 0xE1A1, some 0x10⟩) := by decide

theorem test_ldVdt : see (fun t => (t.reg 3, t.dt)) (step ((start 0xF307).setDt 0x3C)) = some (0x3C, 0x3C) := by decide

theorem test_ldDtv : see (fun t => (t.dt, t.st)) (step ((start 0xF415).setReg 4 0x3C)) = some (0x3C, 0) := by decide

theorem test_ldStv : see (fun t => (t.st, t.dt)) (step ((start 0xF418).setReg 4 0x02)) = some (0x02, 0) := by decide

theorem test_ldVk_waits : see (fun t => (t.pc, t.reg 5, t.draws)) (step (start 0xF50A)) = some (0x200, 0, 0) ∧
    (transact .step (start 0xF50A)).2 = .waiting := by decide

/-- Key 7 alone: whatever the draw, it is the key. -/
theorem test_ldVk_takes_the_pressed_key : (press (start 0xF50A) 7).drawKey.map Prod.fst = some 7 := by
  have h : (press (start 0xF50A) 7).pressedKeys = [7] := by decide
  cases hd : (press (start 0xF50A) 7).drawKey with
  | none => unfold State.drawKey at hd; rw [h] at hd; cases hd
  | some p =>
    unfold State.drawKey at hd
    rw [h] at hd
    cases hd
    simp [Nat.mod_one]

/-! Fetch: L2.2. -/

theorem test_fetch_odd_pc : haltAfter ((start 0x00E0).jumpTo 0x201) =
    some (some ⟨.misalignedFetch, 0x201, none, none⟩) := by decide

theorem test_fetch_high_pc : haltAfter ((start 0x00E0).jumpTo 0x1000) =
    some (some ⟨.addressOutOfRange, 0x1000, none, some 0x1000⟩) := by decide

/-! Transactions: L2.8 and L2.9. -/

theorem test_tick : (transact .tick ((State.reset.setDt 2).setSt 1)).2 = .beep true ∧
    (transact .tick ((State.reset.setDt 2).setSt 1)).1.dt = 1 ∧
    (transact .tick ((State.reset.setDt 1).setSt 0)).2 = .beep false := by decide

theorem test_load_then_fetch : (transact (.load [0x00, 0xE0]) State.reset).1.fetch = .ok 0x00E0 := by rfl

theorem test_reset_memory_holds_the_font : State.reset.byteAt 0x050 = 0xF0 ∧ State.reset.byteAt 0x09F = 0x80 ∧
    State.reset.byteAt 0x04F = 0 ∧ State.reset.byteAt 0x0A0 = 0 := by decide

/-! ### Witnesses: for each statement with hypotheses, a state and operands that meet them -/

/-- The row on which an illegal word sits, family by family, and words next to it that are legal. -/
theorem test_witness_illegal_words :
    (IllegalWord 0x00E1 ∧ IllegalWord 0x5121 ∧ IllegalWord 0x800F ∧ IllegalWord 0x912F ∧ IllegalWord 0xE19F ∧
      IllegalWord 0xF064) ∧ ¬ IllegalWord 0x00EE ∧ ¬ IllegalWord 0x5120 ∧ ¬ IllegalWord 0x800E ∧
      ¬ IllegalWord 0x9120 ∧ ¬ IllegalWord 0xE19E ∧ ¬ IllegalWord 0xF065 := by
  refine ⟨⟨?_, ?_, ?_, ?_, ?_, ?_⟩, ?_, ?_, ?_, ?_, ?_, ?_⟩ <;> (unfold IllegalWord; decide)

theorem test_witness_decodes : decode 0x8FF6 = .known (.shr 15 15) ∧
    (⟨"Fx65", 0xF065#16, 0xF0FF#16⟩ : OpcodeRow) ∈ opcodeTable ∧ 0xFA65#16 &&& 0xF0FF#16 = 0xF065#16 := by decide

theorem test_witness_CanFetch : CanFetch (start 0x8124) ∧ decode (wordAt (start 0x8124) 0x200) = .known (.addR 1 2) ∧
    CanFetch ((start 0x8124).jumpTo 0xFFE) ∧ (start 0x8124).pc = 0x200 := by
  unfold CanFetch; decide

/-- A running machine with an odd pc, with the least even pc out of range, and with the last pc in range. -/
theorem test_witness_fetch_clauses : (start 0).halt = none ∧ ((start 0).jumpTo 0x201).pc.toNat % 2 = 1 ∧
    (((start 0).jumpTo 0x1000).pc.toNat % 2 = 0 ∧ 0x1000 ≤ ((start 0).jumpTo 0x1000).pc.toNat + 1) ∧
    ((start 0).jumpTo 0xFFE).pc.toNat % 2 = 0 ∧ ((start 0).jumpTo 0xFFE).pc.toNat + 1 < 0x1000 := by decide

theorem test_witness_illegal_fetched : CanFetch (start 0x5231) ∧ IllegalWord (wordAt (start 0x5231) 0x200) ∧
    (start 0x5231).pc.toNat = 0x200 := by
  unfold CanFetch IllegalWord; decide

/-- A machine halted by an illegal word. -/
def halted : State := (start 0x5231).raise .unknownOpcode (some 0x5231) none

theorem test_witness_faulting_step : ∃ s t r, s.halt = none ∧ step s = .next t ∧ t.halt = some r :=
  ⟨start 0x5231, halted, _, rfl, rfl, rfl⟩

/-- A halted machine, under both values of TICK_WHEN_HALTED. -/
theorem test_witness_halted : halted.halt = some ⟨.unknownOpcode, 0x200, some 0x5231, none⟩ ∧
    halted.cfg.tickWhenHalted = .decrement ∧
    ({ halted with cfg := { defaultConfig with tickWhenHalted := .ignore } } : State).halt ≠ none ∧
    Transaction.tick ≠ .reset := by decide

/-- Each fault of the table of R122 comes first somewhere, and so does no fault. -/
theorem test_witness_first_fault : firstFault (start 0x00E0) = none ∧
    firstFault ((start 0x00E0).jumpTo 0x1001) = some ⟨.misalignedFetch, 0x1001, none, none⟩ ∧
    firstFault ((start 0x00E0).jumpTo 0x1002) = some ⟨.addressOutOfRange, 0x1002, none, some 0x1002⟩ ∧
    firstFault (start 0xFFFF) = some ⟨.unknownOpcode, 0x200, some 0xFFFF, none⟩ ∧
    firstFault (start 0x00EE) = some ⟨.stackUnderflow, 0x200, some 0x00EE, none⟩ ∧
    firstFault ((start 0xE19E).setReg 1 16) = some ⟨.keyIndexOutOfRange, 0x200, some 0xE19E, some 16⟩ := by decide

/-- The three outcomes of a step: Ok, Waiting, Fault. -/
theorem test_witness_outcomes : (transact .step (start 0x00E0)).2 = .ok ∧
    (transact .step (start 0xF00A)).2 = .waiting ∧
    (transact .step (start 0x5231)).2 = .fault ⟨.unknownOpcode, 0x200, some 0x5231, none⟩ := by decide

/-- A sprite bit that lands at (63, 31), one that wraps to (0, 0), and a pixel no bit lands on. -/
theorem test_witness_SpriteSets : SpriteSets 63 31 [0x80, 0x40] 63 31 ∧ SpriteSets 63 31 [0x80, 0x40] 0 0 ∧
    ¬ SpriteSets 63 31 [0x80, 0x40] 1 1 ∧ ([0x80, 0x40] : List Byte).length ≤ 15 := by
  refine ⟨⟨0, 0, by decide⟩, ⟨1, 1, by decide⟩, ?_, by decide⟩
  rintro ⟨i, j, hi, hj, -, -, hr⟩
  have h1 : i < 2 := hi
  have h2 : 1 = (31 + i) % 32 := hr
  omega

/-- Sprites in and out of range at the boundary; a sprite of height 0 is in range anywhere. -/
theorem test_witness_InRange : InRange ((start 0).setIdx 0xFFFF) 0 ∧ InRange ((start 0).setIdx 0xFF1) 15 ∧
    ¬ InRange ((start 0).setIdx 0xFF2) 15 ∧ ¬ InRange ((start 0).setIdx 0x1000) 1 := by
  unfold InRange; decide

/-- A draw that collides and leaves its origin registers alone, so the second draw has the same origin. -/
theorem test_witness_drawing_twice : see (fun t => (t.reg 0, t.reg 1, t.reg 15))
    (exec (.drw 0 1 1) ((((start 0).setIdx 0x300).setByte 0x300 0x80).setDisplay
      (Display.setPixel Display.blank 0 0 true))) = some (0, 0, 1) ∧
    InRange ((start 0).setIdx 0x300) 1 := by
  unfold InRange; decide

/-- An empty stack, one entry, fifteen and sixteen. -/
theorem test_witness_stack_depths : (start 0).sp.val = 0 ∧ ((start 0).setStack (start 0).stack 1).sp.val = (0 : Fin 16).val + 1 ∧
    ((start 0).setStack (start 0).stack 15).sp.val = (15 : Fin 16).val ∧
    ((start 0).setStack (start 0).stack 16).sp.val = (15 : Fin 16).val + 1 ∧
    ((start 0).setStack (start 0).stack 16).sp.val = 16 := by decide

theorem test_witness_nested_calls : (start 0).halt = none ∧
    (start 0).sp.val + (List.replicate 16 (0x300 : Addr12)).length ≤ 16 ∧
    List.replicate 16 (0x300 : Addr12) ≠ [] ∧ ((start 0).setStack (start 0).stack 16).sp.val + ([] : List Addr12).length ≤ 16 := by
  decide

/-- V[15] = 0x81 shifted left, and V[14] = 0x80 added to V[3] = 0x80: a flag and a result for x = 15 and for another x. -/
theorem test_witness_write_order : (Instr.shl 15 3, 1, 2) ∈ flagAndResult ((start 0).setReg 15 0x81) 15 3 ∧
    (Instr.addR 14 3, 1, 0) ∈ flagAndResult (((start 0).setReg 14 0x80).setReg 3 0x80) 14 3 ∧ (14 : Reg) ≠ 15 := by decide

/-- The x = 15 table of 95_test_vectors.md L2.5 gives these flags and results. -/
theorem test_flagAndResult : (Instr.sub 15 1, 1, 0x02) ∈ flagAndResult (((start 0).setReg 15 5).setReg 1 3) 15 1 ∧
    (Instr.shr 15 0, 0, 0x01) ∈ flagAndResult ((start 0).setReg 15 2) 15 0 ∧
    (Instr.subn 15 1, 1, 0x02) ∈ flagAndResult (((start 0).setReg 15 3).setReg 1 5) 15 1 := by decide

theorem test_witness_mask_bit : (0x0F : Byte).getLsbD 4 = false ∧ (3 : Reg) ≠ 2 := by decide

/-- Index values on both sides of each data bound. -/
theorem test_witness_data_bounds : ((start 0).setIdx 0xFFD).idx.toNat + 2 < 0x1000 ∧
    0x1000 ≤ ((start 0).setIdx 0xFFE).idx.toNat + 2 ∧ ((start 0).setIdx 0xFF0).idx.toNat + (15 : Reg).val < 0x1000 ∧
    0x1000 ≤ ((start 0).setIdx 0xFF1).idx.toNat + (15 : Reg).val ∧ (15 : Reg) ≤ 15 ∧ (14 : Reg) < 15 := by decide

theorem test_witness_stored_word : CanFetch ((start 0xF155).setIdx 0x202) ∧
    ((start 0xF155).setIdx 0x202).pc.toNat + 3 < 0x1000 ∧ 1 ≤ (1 : Reg).val ∧
    ((start 0xF155).setIdx 0x202).idx = ((start 0xF155).setIdx 0x202).pc + 2 ∧
    ((start 0xF155).setIdx 0x202).idx.toNat + (1 : Reg).val < 0x1000 := by
  unfold CanFetch; decide

/-- Key index 15 is a key and 16 is none. -/
theorem test_witness_key_index : (((start 0).setReg 1 15).reg 1).toNat = (15 : Reg).val ∧
    16 ≤ (((start 0).setReg 1 16).reg 1).toNat := by decide

theorem test_witness_key_wait : (∀ k, (start 0xF00A).key k = false) ∧ (press (start 0xF00A) 15).key 15 = true ∧
    CanFetch (start 0xF00A) ∧ decode (wordAt (start 0xF00A) (start 0xF00A).pc.toNat) = .known (.ldVk 0) := by
  unfold CanFetch; decide

theorem test_witness_unnamed_register : (∃ t, exec (.addR 1 2) (start 0) = .next t) ∧ ¬ MayWriteRegister (.addR 1 2) 2 :=
  ⟨⟨_, rfl⟩, by unfold MayWriteRegister; decide⟩

theorem test_witness_memory_written :
    (∃ t, exec (.stRegs 0) (((start 0).setIdx 0xFFF).setReg 0 7) = .next t ∧
      t.byteAt 0xFFF ≠ (((start 0).setIdx 0xFFF).setReg 0 7).byteAt 0xFFF) ∧
    ∃ t, exec (.ldB 0) (((start 0).setIdx 0x300).setReg 0 7) = .next t ∧
      t.byteAt 0x302 ≠ (((start 0).setIdx 0x300).setReg 0 7).byteAt 0x302 :=
  ⟨⟨_, rfl, by decide⟩, ⟨_, rfl, by decide⟩⟩

/-- The display rule: 00E0 completes, a running ALU instruction is neither 00E0 nor Dxyn, and a set flag exists. -/
theorem test_witness_display_writers : (∃ t, exec .cls (start 0) = .next t ∧ t.halt = none) ∧
    (∃ t, exec (.or 0 1) ((start 0).setDisplay Display.blank) = .next t) ∧
    ((start 0).setDisplay Display.blank).redraw = true := ⟨⟨_, rfl, rfl⟩, ⟨_, rfl⟩, rfl⟩

/-- An instruction that writes none of the special registers. -/
theorem test_witness_special_registers : (∃ t, exec (.or 0 1) (start 0) = .next t) ∧ Instr.or 0 1 ≠ .ret ∧
    (∀ nnn, Instr.or 0 1 ≠ .call nnn) ∧ (∀ nnn, Instr.or 0 1 ≠ .ldI nnn) ∧ (∀ x, Instr.or 0 1 ≠ .addI x) ∧
    (∀ x, Instr.or 0 1 ≠ .ldF x) ∧ (∀ x, Instr.or 0 1 ≠ .ldDtv x) ∧ (∀ x, Instr.or 0 1 ≠ .ldStv x) :=
  ⟨⟨_, rfl⟩, by simp, by simp, by simp, by simp, by simp, by simp, by simp⟩

theorem test_witness_step_answers_next : ∃ t, step (start 0x6A7B) = .next t := ⟨_, rfl⟩

theorem test_witness_pc_after : ∃ t, (start 0x6A7B).halt = none ∧ exec (.ldK 10 0x7B) (start 0x6A7B) = .next t ∧
    t.halt = none := ⟨_, rfl, rfl, rfl⟩

/-- Two states that differ in a dead stack entry alone, with one live entry. -/
theorem test_witness_dead_stack :
    SameButDeadStack ((start 0).setStack (Vector.replicate 16 0x202) 1)
      ((start 0).setStack ((Vector.replicate 16 0x202).set 1 0x999) 1) ∧
    ((start 0).setStack (Vector.replicate 16 0x202) 1).stackAt 1 ≠
      ((start 0).setStack ((Vector.replicate 16 0x202).set 1 0x999) 1).stackAt 1 := by
  refine ⟨⟨rfl, ?_⟩, by decide⟩
  decide

theorem test_witness_canonical_memory : Memory.wf defaultConfig [(0x050, 0x11), (0x300, 0x80)] = true ∧
    Memory.wf defaultConfig [(0x300, 0x80), (0x050, 0x11)] = false ∧
    Memory.wf defaultConfig [(0x050, 0xF0)] = false ∧ Memory.wf defaultConfig [(0x1000, 0x11)] = false := by decide

/-- A state with a live stack entry and a byte stored meets the invariant, and its step answers a next state. -/
theorem test_witness_invariant : (((start 0x00EE).setStack (Vector.replicate 16 0x206) 1)).Inv ∧
    ∃ t, step ((start 0x00EE).setStack (Vector.replicate 16 0x206) 1) = .next t := by
  refine ⟨⟨by decide, ?_, by decide, ?_⟩, ⟨_, rfl⟩⟩
  · unfold State.stackSound; decide
  · intro r h; cases h

theorem test_witness_reachable :
    (runSchedule [.load [0x22, 0x00], .step, .tick] (State.resetWith defaultConfig 0)).Reachable :=
  ⟨defaultConfig, 0, [.load [0x22, 0x00], .step, .tick], rfl⟩

theorem test_witness_tick : (State.reset.setSt 1).halt = none ∧ halted.halt ≠ none ∧
    ({ halted with cfg := { defaultConfig with tickWhenHalted := .ignore } } : State).cfg.tickWhenHalted = .ignore := by
  decide

theorem test_witness_beep : (halted.setSt 1).cfg.tickWhenHalted = .decrement ∧ (halted.setSt 1).st.toNat = 1 := by decide

theorem test_witness_redraw_stays_clear : (start 0x6A7B).redraw = false ∧
    decode (wordAt (start 0x6A7B) (start 0x6A7B).pc.toNat) = .known (.ldK 10 0x7B) := by decide

/-- A key that a transaction changes. -/
theorem test_witness_key_changes : (transact (.setKey 4 true) State.reset).1.key 4 ≠ State.reset.key 4 := by decide

theorem test_witness_set_key : (15 : Reg).val = 15 ∧ (transact (.setKey 15 true) State.reset).1.key 15 = true ∧
    (transact (.setKey 16 true) State.reset).2 = .refused := by decide

theorem test_witness_load_bounds : (List.replicate 3584 (0 : Byte)).length ≤ 3584 ∧
    3584 < (List.replicate 3585 (0 : Byte)).length := by
  rw [List.length_replicate, List.length_replicate]; decide

end Sys2Proof.Tests
end

section
/-! SUPPORT. What each instruction leaves unchanged (10_state.md R20 to R32): one lemma per piece of state, over
every way an instruction can end. -/

namespace Sys2Proof.Machine

open Sys2Proof.Claims

/-! ### Dxyn past its range check writes the display, the redraw flag and VF -/

@[simp] theorem State.drawSprite_idx (s : State) (x y : Reg) (n : Nat) : (s.drawSprite x y n).idx = s.idx := rfl
@[simp] theorem State.drawSprite_pc (s : State) (x y : Reg) (n : Nat) : (s.drawSprite x y n).pc = s.pc := rfl
@[simp] theorem State.drawSprite_stack (s : State) (x y : Reg) (n : Nat) : (s.drawSprite x y n).stack = s.stack := rfl
@[simp] theorem State.drawSprite_sp (s : State) (x y : Reg) (n : Nat) : (s.drawSprite x y n).sp = s.sp := rfl
@[simp] theorem State.drawSprite_dt (s : State) (x y : Reg) (n : Nat) : (s.drawSprite x y n).dt = s.dt := rfl
@[simp] theorem State.drawSprite_st (s : State) (x y : Reg) (n : Nat) : (s.drawSprite x y n).st = s.st := rfl
@[simp] theorem State.drawSprite_keys (s : State) (x y : Reg) (n : Nat) : (s.drawSprite x y n).keys = s.keys := rfl
@[simp] theorem State.drawSprite_redraw (s : State) (x y : Reg) (n : Nat) : (s.drawSprite x y n).redraw = true := rfl
@[simp] theorem State.drawSprite_mem (s : State) (x y : Reg) (n : Nat) : (s.drawSprite x y n).mem = s.mem := rfl
@[simp] theorem State.drawSprite_cfg (s : State) (x y : Reg) (n : Nat) : (s.drawSprite x y n).cfg = s.cfg := rfl

theorem State.drawSprite_reg_of_ne (s : State) (x y : Reg) (n : Nat) {k : Reg} (hk : k ≠ 15) :
    (s.drawSprite x y n).reg k = s.reg k := by
  simp [State.drawSprite, hk]

theorem State.writeFR_reg_of_ne (s : State) {x k : Reg} (f : Bool) (r : Byte) (hx : k ≠ x) (hf : k ≠ 15) :
    (s.writeFR x f r).reg k = s.reg k := by
  cases h : s.cfg.flagWriteOrder <;> simp [h, hx, hf]

theorem State.loadRegs_reg_of_lt (s : State) {x k : Reg} (hk : x < k) : (s.loadRegs x).reg k = s.reg k := by
  simp [Fin.not_le.mpr hk]

/-! ### The frames of an instruction -/

section Frames

variable {s t : State} {i : Instr}

/-- The "writes" column of R21. -/
theorem Executes.reg_of_not_written (h : Executes s i t) {k : Reg} (hk : ¬ MayWriteRegister i k) :
    t.reg k = s.reg k := by
  cases h <;> simp only [MayWriteRegister, not_or, Fin.not_le] at hk
  case addR | sub | shr | subn | shl =>
    obtain ⟨hf, hx⟩ := hk
    simp only [State.advance_reg, State.writeFR_reg_of_ne _ _ _ hx hf]
  case drw x y n h => simp only [State.advance_reg, State.drawSprite_reg_of_ne _ _ _ _ hk]
  case ldRegs x h => simp only [State.advance_reg, State.loadRegs_reg_of_lt _ hk]
  all_goals simp [hk]

theorem Executes.stack_of_ne (h : Executes s i t) (hret : i ≠ .ret) (hcall : ∀ nnn, i ≠ .call nnn) :
    t.sp = s.sp ∧ t.stack = s.stack := by
  cases h
  case ret => exact absurd rfl hret
  case call nnn _ => exact absurd rfl (hcall nnn)
  all_goals exact ⟨by simp, by simp⟩

theorem Executes.idx_of_ne (h : Executes s i t) (hld : ∀ nnn, i ≠ .ldI nnn) (hadd : ∀ x, i ≠ .addI x)
    (hf : ∀ x, i ≠ .ldF x) : t.idx = s.idx := by
  cases h
  case ldI nnn => exact absurd rfl (hld nnn)
  case addI x => exact absurd rfl (hadd x)
  case ldF x => exact absurd rfl (hf x)
  all_goals simp

theorem Executes.dt_of_ne (h : Executes s i t) (hd : ∀ x, i ≠ .ldDtv x) : t.dt = s.dt := by
  cases h
  case ldDtv x => exact absurd rfl (hd x)
  all_goals simp

theorem Executes.st_of_ne (h : Executes s i t) (hs : ∀ x, i ≠ .ldStv x) : t.st = s.st := by
  cases h
  case ldStv x => exact absurd rfl (hs x)
  all_goals simp

/-- 00E0 and Dxyn set the redraw flag, unless they take the halt. -/
theorem Executes.redraw_of_clear_or_draw (h : Executes s i t) (hi : i = .cls ∨ ∃ x y n, i = .drw x y n)
    (ht : t.halt = none) : t.redraw = true := by
  cases h
  case raised => simp at ht
  case cls | drw => simp
  all_goals simp at hi

theorem Executes.display_of_ne (h : Executes s i t) (hcls : i ≠ .cls) (hdrw : ∀ x y n, i ≠ .drw x y n) :
    t.redraw = s.redraw ∧ t.disp = s.disp := by
  cases h
  case cls => exact absurd rfl hcls
  case drw x y n _ => exact absurd rfl (hdrw x y n)
  all_goals exact ⟨by simp, by simp⟩

theorem Executes.redraw_stays_set (h : Executes s i t) (hs : s.redraw = true) : t.redraw = true := by
  cases h <;> simp [hs]

theorem Executes.keys_eq (h : Executes s i t) : t.keys = s.keys := by
  cases h <;> simp

theorem Executes.cfg_eq (h : Executes s i t) : t.cfg = s.cfg := by
  cases h <;> simp

/-- Fx33 and Fx55 write memory inside the address space, so its canonical form stays. -/
theorem Executes.keeps_wf (h : Executes s i t) (hs : Memory.wf s.cfg s.mem = true) :
    Memory.wf t.cfg t.mem = true := by
  cases h
  case ldB x h => exact State.wf_storeBytes s _ _ (by simpa [decimalDigits] using h) hs
  case stRegs x h => exact State.wf_storeBytes s _ _ (by rw [State.length_regsUpTo]; omega) hs
  all_goals simpa using hs

end Frames

end Sys2Proof.Machine
end

section
/-! SUPPORT. What a step of a running machine can do, and what every step leaves unchanged. -/

namespace Sys2Proof.Machine

theorem State.fetch_eq_ok {s : State} {w : Word} (h : s.fetch = .ok w) :
    s.pc.toNat % 2 = 0 ∧ s.pc.toNat < 0x1000 := by
  by_cases hodd : s.pc.toNat % 2 = 1
  · rw [State.fetch_of_odd s hodd] at h; cases h
  · by_cases hhigh : 0x1000 ≤ s.pc.toNat
    · rw [State.fetch_of_high s (by omega) hhigh] at h; cases h
    · omega

/-- No instruction stops the machine without a next state. -/
theorem exec_eq_next (i : Instr) (s : State) : ∃ t, exec i s = .next t := by
  rcases exec_completesOrRaises i s with ⟨t, ht, _⟩ | ⟨k, w, a, hr⟩
  · exact ⟨t, ht⟩
  · exact ⟨_, hr⟩

/-- A step that answers a next state: of a running machine, which takes the halt or executes an instruction
fetched from an even address below 0x1000. -/
theorem step_eq_next {s t : State} (h : step s = .next t) :
    s.halt = none ∧ ((∃ k w a, t = s.raise k w a) ∨
      (s.pc.toNat % 2 = 0 ∧ s.pc.toNat < 0x1000 ∧ ∃ i, exec i s = .next t)) := by
  rcases step_cases s with ⟨r, _, hs⟩ | ⟨hh, k, a, _, hs⟩ | ⟨hh, w, _, _, hs⟩ | ⟨hh, w, i, hf, _, hs⟩ <;>
    rw [hs] at h
  · cases h
  · cases h; exact ⟨hh, .inl ⟨k, none, a, rfl⟩⟩
  · cases h; exact ⟨hh, .inl ⟨.unknownOpcode, some w, none, rfl⟩⟩
  · obtain ⟨heven, hlow⟩ := State.fetch_eq_ok hf
    exact ⟨hh, .inr ⟨heven, hlow, i, h⟩⟩

end Sys2Proof.Machine
end

section
/-! SUPPORT. The invariant `State.Inv`: it holds after reset, every step and every other transaction keeps it
(10_state.md R25, R38, 60_exceptions.md R121). -/

namespace Sys2Proof.Machine

/-! ### What the invariant depends on -/

/-- Beside the memory's form, the invariant speaks of the stack, pc and the halt status alone. -/
theorem State.Inv.of_eq {s t : State} (h : s.Inv) (hwf : Memory.wf t.cfg t.mem = true) (hstack : t.stack = s.stack)
    (hsp : t.sp = s.sp) (hpc : t.pc = s.pc) (hhalt : t.halt = s.halt) : t.Inv where
  memory := hwf
  stack := fun k hk => by
    rw [State.stackAt, hstack]
    exact h.stack k (hsp ▸ hk)
  pc := hpc ▸ h.pc
  halt := fun r hr => hpc ▸ h.halt r (hhalt ▸ hr)

theorem State.inv_resetWith (c : Config) (d : Nat) : (State.resetWith c d).Inv where
  memory := State.wf_resetWith c d
  stack := fun _ hk => absurd hk (Nat.not_lt_zero _)
  pc := show (0x200#16).toNat ≤ 0x10FE by decide
  halt := fun _ hr => by cases hr

/-- Taking the halt records pc and changes nothing else. -/
theorem State.Inv.raise {s : State} (h : s.Inv) (k : FaultKind) (w : Option Word) (a : Option Nat) :
    (s.raise k w a).Inv where
  memory := h.memory
  stack := h.stack
  pc := h.pc
  halt := fun r hr => by cases hr; rfl

/-! ### The values pc can take (R25, R68) -/

theorem toNat_zext16 (nnn : Addr12) : (zext16 nnn).toNat = nnn.toNat := by
  have := nnn.isLt
  simp only [zext16, BitVec.toNat_setWidth]
  omega

/-- The largest jump target: 0xFFF + 0xFF, the sum of Bnnn. -/
theorem toNat_jpV0_le (nnn : Addr12) (b : Byte) : (zext16 nnn + byteToWord b).toNat ≤ 0x10FE := by
  have := nnn.isLt
  have := b.isLt
  simp only [byteToWord, BitVec.toNat_add, toNat_zext16, BitVec.toNat_setWidth]
  omega

theorem toNat_pc_add_two {s : State} (h : s.pc.toNat < 0x1000) : (s.pc + 2).toNat = s.pc.toNat + 2 := by
  rw [BitVec.toNat_add]
  show (s.pc.toNat + 2) % 65536 = _
  omega

theorem State.toNat_advance_pc_le {s u : State} (hu : u.pc = s.pc) (h : s.pc.toNat < 0x1000) :
    u.advance.pc.toNat ≤ 0x10FE := by
  rw [State.advance_pc, hu, toNat_pc_add_two h]
  omega

theorem State.toNat_skipIf_pc_le {s : State} (h : s.pc.toNat < 0x1000) (b : Bool) :
    (s.skipIf b).pc.toNat ≤ 0x10FE := by
  cases b
  · exact State.toNat_advance_pc_le (u := s) rfl h
  · rw [State.skipIf_pc, if_pos rfl, BitVec.toNat_add]
    show (s.pc.toNat + 4) % 65536 ≤ _
    omega

/-- From a pc that can be fetched from and a sound stack, no instruction leaves the bound of R25. -/
theorem Executes.pc_le {s t : State} {i : Instr} (h : Executes s i t) (hpc : s.pc.toNat < 0x1000)
    (hs : s.stackSound) : t.pc.toNat ≤ 0x10FE := by
  cases h
  case raised | waits => exact hpc.le.trans (by decide)
  case jp nnn | call nnn _ =>
    rw [State.jumpTo_pc, toNat_zext16]
    exact nnn.isLt.le.trans (by decide)
  case jpV0 nnn => exact toNat_jpV0_le nnn _
  case ret hpos => exact (hs _ (Nat.sub_lt hpos Nat.one_pos)).2.trans (by decide)
  case seK | sneK | seR | sneR | skp | sknp => exact State.toNat_skipIf_pc_le hpc _
  all_goals exact State.toNat_advance_pc_le (by simp) hpc

/-! ### The live stack entries (R38) -/

/-- A pop makes no entry live. -/
theorem State.stackSound.pop {s : State} (h : s.stackSound) (n : Fin 17) (hn : n.val ≤ s.sp.val) :
    (s.setStack s.stack n).stackSound :=
  fun k hk => h k (Nat.lt_of_lt_of_le hk hn)

/-- A push makes one entry live: the word pushed. -/
theorem State.stackSound.push {s : State} (h : s.stackSound) {w : Word} (hw : w.toNat % 2 = 0 ∧ w.toNat ≤ 0x1000)
    (hlt : s.sp.val < 16) : (s.setStack (s.stack.set s.sp.val w) ⟨s.sp.val + 1, by omega⟩).stackSound := by
  intro k hk
  rw [State.stackAt_setStack, Vector.getElem_set]
  split
  · exact hw
  · exact h k (by simp only [State.setStack_sp] at hk; omega)

/-- The value a call pushes, `pc0 + 2` for an even pc0 of at most 0xFFE, is what R38 says. -/
theorem Executes.keeps_stackSound {s t : State} {i : Instr} (h : Executes s i t) (heven : s.pc.toNat % 2 = 0)
    (hpc : s.pc.toNat < 0x1000) (hs : s.stackSound) : t.stackSound := by
  by_cases hret : i = .ret
  · subst hret
    cases h
    case raised => exact hs
    case ret hpos => exact hs.pop ⟨s.sp.val - 1, by omega⟩ (Nat.sub_le _ _)
  by_cases hcall : ∃ nnn, i = .call nnn
  · obtain ⟨nnn, rfl⟩ := hcall
    cases h
    case raised => exact hs
    case call hlt =>
      have hw := toNat_pc_add_two hpc
      exact hs.push (w := s.pc + 2) ⟨by omega, by omega⟩ hlt
  · obtain ⟨hsp, hstack⟩ := h.stack_of_ne hret (not_exists.mp hcall)
    intro k hk
    rw [State.stackAt, hstack]
    exact hs k (hsp ▸ hk)

/-! ### Steps and transactions -/

/-- An instruction executed by a running machine from a pc that can be fetched from keeps the invariant. -/
theorem State.Inv.exec {s t : State} {i : Instr} (h : s.Inv) (hhalt : s.halt = none)
    (heven : s.pc.toNat % 2 = 0) (hpc : s.pc.toNat < 0x1000) (he : exec i s = .next t) : t.Inv := by
  have hx := exec_executes he
  rcases exec_completesOrRaises i s with ⟨u, hu, huh⟩ | ⟨k, w, a, hr⟩
  · cases hu.symm.trans he
    exact
      { memory := hx.keeps_wf h.memory
        stack := hx.keeps_stackSound heven hpc h.stack
        pc := hx.pc_le hpc h.stack
        halt := fun r hr => by rw [huh, hhalt] at hr; cases hr }
  · cases hr.symm.trans he
    exact h.raise k w a

theorem State.Inv.step {s t : State} (h : s.Inv) (hs : step s = .next t) : t.Inv := by
  obtain ⟨hhalt, ⟨k, w, a, rfl⟩ | ⟨heven, hpc, i, he⟩⟩ := step_eq_next hs
  · exact h.raise k w a
  · exact h.exec hhalt heven hpc he

/-- A load stays inside 0x200 .. 0xFFF (R145). -/
theorem State.Inv.load {s : State} (h : s.Inv) (bytes : List Byte) : (s.load bytes).1.Inv := by
  unfold State.load
  split
  · exact h
  · exact h.of_eq (State.wf_storeBytes s 0x200 bytes (by omega) h.memory) (by simp) (by simp) (by simp) (by simp)

theorem State.Inv.tick {s : State} (h : s.Inv) : s.tick.1.Inv := by
  unfold State.tick
  split
  · exact h
  · exact h.of_eq h.memory rfl rfl rfl rfl

theorem State.Inv.setKey {s : State} (h : s.Inv) (index : Nat) (pressed : Bool) :
    (s.setKey index pressed).1.Inv := by
  unfold State.setKey
  split
  · exact h.of_eq h.memory rfl rfl rfl rfl
  · exact h

theorem State.Inv.transact {s : State} (h : s.Inv) (tr : Transaction) : (transact tr s).1.Inv := by
  cases tr with
  | reset => exact State.inv_resetWith s.cfg s.draws
  | load bytes => exact h.load bytes
  | step =>
    rcases stepTransaction_state s with hs | hs
    · exact hs.symm ▸ h
    · exact h.step hs
  | tick => exact h.tick
  | setKey index pressed => exact h.setKey index pressed
  | display => exact h
  | consumeRedrawFlag => exact h.of_eq h.memory rfl rfl rfl rfl

theorem State.Reachable.inv {s : State} (h : s.Reachable) : s.Inv :=
  h.holds State.inv_resetWith fun tr _ hs => hs.transact tr

end Sys2Proof.Machine
end

section
/-! SUPPORT. What a memory in canonical form lists is exactly what it reads as other than its reset contents. -/

namespace Sys2Proof.Machine

theorem Memory.read_of_mem (c : Config) {m : Memory} (hm : m.Pairwise fun p q => p.1 < q.1) {p : Host.Cell}
    (hp : p ∈ m) : Memory.read c m p.1 = p.2 := by
  induction m with
  | nil => cases hp
  | cons q m ih =>
    obtain ⟨hq, hm⟩ := List.pairwise_cons.mp hm
    rcases List.mem_cons.mp hp with rfl | hp
    · exact if_pos rfl
    · exact (if_neg (hq p hp).ne).trans (ih hm hp)

theorem Memory.read_of_not_listed (c : Config) {m : Memory} {a : Nat} (h : ∀ p ∈ m, p.1 ≠ a) :
    Memory.read c m a = resetByte c a := by
  induction m with
  | nil => rfl
  | cons q m ih =>
    exact (if_neg (h q List.mem_cons_self)).trans (ih fun p hp => h p (List.mem_cons_of_mem q hp))

theorem Memory.mem_iff_of_wf {c : Config} {m : Memory} (h : Memory.wf c m = true) (p : Host.Cell) :
    p ∈ m ↔ Memory.read c m p.1 = p.2 ∧ p.2 ≠ resetByte c p.1 := by
  obtain ⟨hsorted, hcells⟩ := (Memory.wf_iff c m).mp h
  constructor
  · exact fun hp => ⟨Memory.read_of_mem c hsorted hp, (hcells p hp).2⟩
  · rintro ⟨hread, hne⟩
    by_contra hp
    refine hne (hread.symm.trans (Memory.read_of_not_listed c fun q hq hqp => hp ?_))
    have hq2 : q.2 = p.2 := by rw [← Memory.read_of_mem c hsorted hq, hqp, hread]
    exact Prod.ext hqp hq2 ▸ hq

/-- Two lists sorted by address with the same cells are the same list. -/
theorem Memory.eq_of_mem_iff {m m' : Memory} (hm : m.Pairwise fun p q => p.1 < q.1)
    (hm' : m'.Pairwise fun p q => p.1 < q.1) (h : ∀ p, p ∈ m ↔ p ∈ m') : m = m' := by
  have : Std.Irrefl fun p q : Host.Cell => p.1 < q.1 := ⟨fun p => lt_irrefl p.1⟩
  have : Std.Antisymm fun p q : Host.Cell => p.1 < q.1 := ⟨fun _ _ hpq hqp => absurd hqp hpq.not_gt⟩
  exact hm.eq_of_mem_iff hm' h

end Sys2Proof.Machine
end

section
/-! SUPPORT. The contents of memory after reset (20_memory.md R40). -/

namespace Sys2Proof.Machine

theorem resetByte_font (c : Config) (k : Fin 80) : resetByte c (c.fontBase.val + k.val) = c.fontData[k.val] := by
  rw [resetByte, dif_pos (by omega)]
  simp only [Nat.add_sub_cancel_left]

theorem resetByte_of_out (c : Config) {a : Nat} (h : a < c.fontBase.val ∨ c.fontBase.val + 80 ≤ a) :
    resetByte c a = 0 :=
  dif_neg (by omega)

end Sys2Proof.Machine
end

section
/-! SUPPORT. Replacing the stack's entries alone (10_state.md R26, R27): which meanings do not see it. 00EE and 2nnn
are the two that touch the stack; every other meaning, the fetch and the readers of the host carry it through. -/

namespace Sys2Proof.Machine

/-- The state with other stack entries, SP and everything else kept. -/
def State.withEntries (s : State) (e : Vector Word 16) : State := { s with stack := e }

@[simp] theorem State.withEntries_stack (s : State) (e : Vector Word 16) : (s.withEntries e).stack = e := rfl
@[simp] theorem State.withEntries_sp (s : State) (e : Vector Word 16) : (s.withEntries e).sp = s.sp := rfl
@[simp] theorem State.withEntries_pc (s : State) (e : Vector Word 16) : (s.withEntries e).pc = s.pc := rfl
@[simp] theorem State.withEntries_halt (s : State) (e : Vector Word 16) : (s.withEntries e).halt = s.halt := rfl
@[simp] theorem State.withEntries_fetch (s : State) (e : Vector Word 16) : (s.withEntries e).fetch = s.fetch := rfl

@[simp] theorem State.withEntries_isWaiting (s : State) (e : Vector Word 16) :
    (s.withEntries e).isWaiting = s.isWaiting := rfl

@[simp] theorem State.withEntries_raise (s : State) (e : Vector Word 16) (k : FaultKind) (w : Option Word)
    (a : Option Nat) : (s.withEntries e).raise k w a = (s.raise k w a).withEntries e := rfl

theorem State.withEntries_writeFR (s : State) (e : Vector Word 16) (x : Reg) (f : Bool) (r : Byte) :
    (s.withEntries e).writeFR x f r = (s.writeFR x f r).withEntries e := by
  cases h : s.cfg.flagWriteOrder <;> simp [State.writeFR, h, State.withEntries] <;> rfl

theorem State.withEntries_storeBytes (s : State) (e : Vector Word 16) (a : Nat) (bs : List Byte) :
    (s.withEntries e).storeBytes a bs = (s.storeBytes a bs).withEntries e := by
  induction bs generalizing s a with
  | nil => rfl
  | cons b bs ih => exact ih (s.setByte a b) (a + 1)

/-- A result with `f` applied to its next state. -/
def mapNext (f : State → State) : Result → Result
  | .next t => .next (f t)
  | .fault r => .fault r
  | .refused r => .refused r

theorem withEntries_writeFR_advance (s : State) (e : Vector Word 16) (x : Reg) (f : Bool) (r : Byte) :
    (.next ((s.withEntries e).writeFR x f r).advance : Result) =
      mapNext (·.withEntries e) (.next (s.writeFR x f r).advance) := by
  rw [State.withEntries_writeFR]; rfl

theorem withEntries_withRange (i : Instr) (base n : Nat) (s : State) (e : Vector Word 16) {go go' : State}
    (hgo : go' = go.withEntries e) :
    withRange i base n (s.withEntries e) go' = mapNext (·.withEntries e) (withRange i base n s go) := by
  subst hgo
  rcases withRange_cases i base n s go with ⟨h, hs⟩ | ⟨⟨hn, h⟩, hs⟩
  · rw [hs, withRange_of_ok _ _ _ _ _ h]; rfl
  · rw [hs, withRange_of_out _ _ _ _ _ hn h]; rfl

theorem withEntries_execSkp (x : Reg) (s : State) (e : Vector Word 16) :
    execSkp x (s.withEntries e) = mapNext (·.withEntries e) (execSkp x s) := by
  rcases execSkp_cases x s with ⟨h, hs⟩ | ⟨h, hs⟩
  · rw [hs, execSkp, State.keyAt_of_ge (s.withEntries e) x h]; rfl
  · rw [hs, execSkp, State.keyAt_of_lt (s.withEntries e) x h]; rfl

theorem withEntries_execSknp (x : Reg) (s : State) (e : Vector Word 16) :
    execSknp x (s.withEntries e) = mapNext (·.withEntries e) (execSknp x s) := by
  rcases execSknp_cases x s with ⟨h, hs⟩ | ⟨h, hs⟩
  · rw [hs, execSknp, State.keyAt_of_ge (s.withEntries e) x h]; rfl
  · rw [hs, execSknp, State.keyAt_of_lt (s.withEntries e) x h]; rfl

/-- The key drawn depends on the keypad and the draw counter alone. -/
theorem withEntries_drawKey (s : State) (e : Vector Word 16) :
    (s.withEntries e).drawKey = s.drawKey.map fun p => (p.1, p.2.withEntries e) := by
  unfold State.drawKey
  rw [show (s.withEntries e).pressedKeys = s.pressedKeys from rfl]
  cases s.pressedKeys <;> rfl

theorem withEntries_execLdVk (x : Reg) (s : State) (e : Vector Word 16) :
    execLdVk x (s.withEntries e) = mapNext (·.withEntries e) (execLdVk x s) := by
  rw [execLdVk, execLdVk, withEntries_drawKey]
  cases s.drawKey <;> rfl

/-- Every instruction but 00EE and 2nnn does the same whatever the stack's entries are, and hands them on. -/
theorem exec_withEntries {i : Instr} (hret : i ≠ .ret) (hcall : ∀ nnn, i ≠ .call nnn) (s : State)
    (e : Vector Word 16) : exec i (s.withEntries e) = mapNext (·.withEntries e) (exec i s) := by
  cases i
  case ret => exact absurd rfl hret
  case call nnn => exact absurd rfl (hcall nnn)
  case addR | sub | shr | subn | shl => exact withEntries_writeFR_advance s e _ _ _
  case skp x => exact withEntries_execSkp x s e
  case sknp x => exact withEntries_execSknp x s e
  case ldVk x => exact withEntries_execLdVk x s e
  case drw | ldRegs => exact withEntries_withRange _ _ _ s e rfl
  case ldB | stRegs =>
    exact withEntries_withRange _ _ _ s e (congrArg State.advance (State.withEntries_storeBytes s e _ _))
  all_goals rfl

end Sys2Proof.Machine
end

section
/-! SUPPORT. States that agree but for their dead stack entries (10_state.md R27): every transaction answers the same
on both and keeps the agreement. -/

namespace Sys2Proof.Machine

open Sys2Proof.Claims

/-- The entries `e` hold every live entry of the state. -/
def State.LiveIn (s : State) (e : Vector Word 16) : Prop := ∀ k : Fin 16, k.val < s.sp.val → e[k.val] = s.stackAt k

theorem State.LiveIn.same {s : State} {e : Vector Word 16} (h : s.LiveIn e) : SameButDeadStack s (s.withEntries e) :=
  ⟨rfl, h⟩

/-- The second of two such states is the first with other entries that hold its live ones. -/
theorem sameButDeadStack_iff (s t : State) : SameButDeadStack s t ↔ ∃ e, t = s.withEntries e ∧ s.LiveIn e :=
  ⟨fun ⟨ht, hlive⟩ => ⟨t.stack, ht, hlive⟩, fun ⟨_, ht, hlive⟩ => ht ▸ hlive.same⟩

/-- The results of an instruction or a step on two such states: the same record of a halted machine, or next states
that again agree but for the dead entries. -/
inductive SameResult : Result → Result → Prop where
  | fault (r : Fault) : SameResult (.fault r) (.fault r)
  | next {s t : State} (h : SameButDeadStack s t) : SameResult (.next s) (.next t)

section Entries

variable {s : State} {e : Vector Word 16}

theorem SameResult.raise (h : s.LiveIn e) (k : FaultKind) (w : Option Word) (a : Option Nat) :
    SameResult (.next (s.raise k w a)) (.next ((s.withEntries e).raise k w a)) :=
  .next ⟨rfl, h⟩

/-- 00EE reads the top entry, which is live, and makes none live. -/
theorem sameResult_execRet (h : s.LiveIn e) : SameResult (execRet s) (execRet (s.withEntries e)) := by
  rcases execRet_cases s with ⟨h0, hs⟩ | ⟨hpos, hs⟩
  · rw [hs, execRet, State.pop_of_empty (s.withEntries e) h0]
    exact .raise h _ _ _
  · have htop : (s.withEntries e).stackAt ⟨s.sp.val - 1, by omega⟩ = s.stackAt ⟨s.sp.val - 1, by omega⟩ :=
      h _ (Nat.sub_lt hpos Nat.one_pos)
    rw [hs, execRet, State.pop_of_pos (s.withEntries e) hpos, ← htop]
    exact .next ⟨rfl, fun k hk => h k (Nat.lt_of_lt_of_le hk (Nat.sub_le _ _))⟩

/-- 2nnn overwrites the one entry it makes live. -/
theorem sameResult_execCall (nnn : Addr12) (h : s.LiveIn e) :
    SameResult (execCall nnn s) (execCall nnn (s.withEntries e)) := by
  rcases execCall_cases nnn s with ⟨hfull, hs⟩ | ⟨hlt, hs⟩
  · rw [hs, execCall, State.push_of_full (s.withEntries e) _ hfull]
    exact .raise h _ _ _
  · rw [hs, execCall, State.push_of_lt (s.withEntries e) _ hlt]
    refine .next ⟨rfl, fun k hk => ?_⟩
    simp only [State.jumpTo_sp, State.setStack_sp] at hk
    simp only [State.jumpTo_stackAt, State.stackAt_setStack, State.withEntries_stack, State.withEntries_sp,
      State.withEntries_pc, Vector.getElem_set]
    split
    · rfl
    · exact h k (by omega)

theorem sameResult_exec (i : Instr) (h : s.LiveIn e) : SameResult (exec i s) (exec i (s.withEntries e)) := by
  by_cases hret : i = .ret
  · subst hret; exact sameResult_execRet h
  by_cases hcall : ∃ nnn, i = .call nnn
  · obtain ⟨nnn, rfl⟩ := hcall; exact sameResult_execCall nnn h
  · have hcall := not_exists.mp hcall
    obtain ⟨t, ht⟩ := exec_eq_next i s
    obtain ⟨hsp, hstack⟩ := (exec_executes ht).stack_of_ne hret hcall
    rw [exec_withEntries hret hcall, ht]
    refine .next (State.LiveIn.same fun k hk => ?_)
    rw [State.stackAt, hstack]
    exact h k (hsp ▸ hk)

theorem sameResult_step (h : s.LiveIn e) : SameResult (step s) (step (s.withEntries e)) := by
  rcases step_cases s with ⟨r, hh, hs⟩ | ⟨hh, k, a, hf, hs⟩ | ⟨hh, w, hf, hd, hs⟩ | ⟨hh, w, i, hf, hd, hs⟩
  · rw [hs, show step (s.withEntries e) = .fault (.halted r) by simp [step, hh]]
    exact .fault _
  · rw [hs, show step (s.withEntries e) = .next ((s.withEntries e).raise k none a) by simp [step, hh, hf]]
    exact .raise h _ _ _
  · rw [hs, show step (s.withEntries e) = .next ((s.withEntries e).raise .unknownOpcode (some w) none) by
      simp [step, hh, hf, hd]]
    exact .raise h _ _ _
  · rw [hs, show step (s.withEntries e) = exec i (s.withEntries e) by simp [step, hh, hf, hd]]
    exact sameResult_exec i h

theorem stepTransaction_withEntries (h : s.LiveIn e) :
    s.stepTransaction.2 = (s.withEntries e).stepTransaction.2 ∧
      SameButDeadStack s.stepTransaction.1 (s.withEntries e).stepTransaction.1 := by
  have hstep := sameResult_step h
  unfold State.stepTransaction
  generalize step s = r, step (s.withEntries e) = r' at hstep
  cases hstep with
  | fault f => cases f; exact ⟨rfl, h.same⟩
  | @next u v hsame =>
    obtain ⟨e', rfl, -⟩ := (sameButDeadStack_iff u v).mp hsame
    simp only [State.withEntries_halt, State.withEntries_isWaiting]
    cases u.halt <;> exact ⟨rfl, hsame⟩

theorem load_withEntries (h : s.LiveIn e) (bytes : List Byte) :
    (s.load bytes).2 = ((s.withEntries e).load bytes).2 ∧
      SameButDeadStack (s.load bytes).1 ((s.withEntries e).load bytes).1 := by
  unfold State.load
  split
  · exact ⟨rfl, h.same⟩
  · rw [State.withEntries_storeBytes]
    exact ⟨rfl, State.LiveIn.same fun k hk => by simpa using h k (by simpa using hk)⟩

theorem tick_withEntries (h : s.LiveIn e) :
    s.tick.2 = (s.withEntries e).tick.2 ∧ SameButDeadStack s.tick.1 (s.withEntries e).tick.1 := by
  unfold State.tick
  rw [show (s.withEntries e).timersFrozen = s.timersFrozen from rfl]
  split <;> exact ⟨rfl, rfl, h⟩

theorem setKey_withEntries (h : s.LiveIn e) (index : Nat) (pressed : Bool) :
    (s.setKey index pressed).2 = ((s.withEntries e).setKey index pressed).2 ∧
      SameButDeadStack (s.setKey index pressed).1 ((s.withEntries e).setKey index pressed).1 := by
  unfold State.setKey
  split <;> exact ⟨rfl, rfl, h⟩

end Entries

theorem transact_sameButDeadStack {s t : State} (h : SameButDeadStack s t) (tr : Transaction) :
    (transact tr s).2 = (transact tr t).2 ∧ SameButDeadStack (transact tr s).1 (transact tr t).1 := by
  obtain ⟨e, rfl, hlive⟩ := (sameButDeadStack_iff s t).mp h
  cases tr with
  | reset => exact ⟨rfl, rfl, fun _ _ => rfl⟩
  | load bytes => exact load_withEntries hlive bytes
  | step => exact stepTransaction_withEntries hlive
  | tick => exact tick_withEntries hlive
  | setKey index pressed => exact setKey_withEntries hlive index pressed
  | display => exact ⟨rfl, h⟩
  | consumeRedrawFlag => exact ⟨rfl, rfl, hlive⟩

end Sys2Proof.Machine
end

section
/-! The obligations of the state (10_state.md), each settled by the lemmas above. -/

namespace Sys2Proof.Proofs

open Sys2Proof.Machine Sys2Proof.Claims

/-- Settles O45: 00EE reads a live entry, 2nnn overwrites the entry it makes live, and no other instruction or
transaction sees the stack. -/
theorem deadStackEntriesAreNotObservable : Obligations.DeadStackEntriesAreNotObservable := by
  unfold Obligations.DeadStackEntriesAreNotObservable
  exact fun _ _ tr h => transact_sameButDeadStack h tr

/-- Settles O47, by the ways a step of a running machine can end. -/
theorem stepKeepsTheInvariant : Obligations.StepKeepsTheInvariant := by
  unfold Obligations.StepKeepsTheInvariant
  exact fun _ _ hinv hs => hinv.step hs

/-- Settles O57, transaction by transaction. -/
theorem transactionsKeepTheInvariant : Obligations.TransactionsKeepTheInvariant := by
  unfold Obligations.TransactionsKeepTheInvariant
  exact fun _ tr hinv => hinv.transact tr

/-- Settles O39, by the frame of every instruction on the registers. -/
theorem onlyNamedRegistersAreWritten : Obligations.OnlyNamedRegistersAreWritten := by
  unfold Obligations.OnlyNamedRegistersAreWritten
  exact fun _ _ _ _ he hk => (exec_executes he).reg_of_not_written hk

/-- Settles O41, by the frame of every instruction on the display and the redraw flag. -/
theorem onlyClearAndDrawWriteTheDisplay : Obligations.OnlyClearAndDrawWriteTheDisplay := by
  unfold Obligations.OnlyClearAndDrawWriteTheDisplay
  intro i s t he
  have hx := exec_executes he
  refine ⟨hx.redraw_of_clear_or_draw, fun hcls hdrw => ?_, hx.redraw_stays_set⟩
  obtain ⟨hredraw, hdisp⟩ := hx.display_of_ne hcls hdrw
  exact ⟨hredraw, fun c r => by rw [State.pixel, hdisp]; rfl⟩

/-- Settles O42, by the frame of every instruction on each special register. -/
theorem specialRegistersHaveTheirOwnWriters : Obligations.SpecialRegistersHaveTheirOwnWriters := by
  unfold Obligations.SpecialRegistersHaveTheirOwnWriters
  intro i s t he
  have hx := exec_executes he
  refine ⟨fun hret hcall => ?_, hx.idx_of_ne, hx.dt_of_ne, hx.st_of_ne⟩
  obtain ⟨hsp, hstack⟩ := hx.stack_of_ne hret hcall
  exact ⟨hsp, fun k => by rw [State.stackAt, hstack]; rfl⟩

/-- Settles O43: a step takes the halt or executes an instruction, and neither writes the keypad or the parameters. -/
theorem stepNeverWritesTheKeypadOrTheParameters : Obligations.StepNeverWritesTheKeypadOrTheParameters := by
  unfold Obligations.StepNeverWritesTheKeypadOrTheParameters
  intro s t hs
  obtain ⟨-, ⟨k, w, a, rfl⟩ | ⟨-, -, i, he⟩⟩ := step_eq_next hs
  · exact ⟨fun _ => rfl, rfl⟩
  · have hx := exec_executes he
    exact ⟨fun k => by rw [State.key, hx.keys_eq]; rfl, hx.cfg_eq⟩

/-- Settles O46: both lists are sorted by address, and what each lists is what the memory reads as other than its
reset contents. -/
theorem canonicalMemoriesThatReadAlikeAreEqual : Obligations.CanonicalMemoriesThatReadAlikeAreEqual := by
  unfold Obligations.CanonicalMemoriesThatReadAlikeAreEqual
  intro c m m' h h' hread
  refine Memory.eq_of_mem_iff ((Memory.wf_iff c m).mp h).1 ((Memory.wf_iff c m').mp h').1 fun p => ?_
  rw [Memory.mem_iff_of_wf h, Memory.mem_iff_of_wf h', hread]

/-- Settles O58, by the induction over schedules. -/
theorem reachableStatesMeetTheInvariant : Obligations.ReachableStatesMeetTheInvariant := by
  unfold Obligations.ReachableStatesMeetTheInvariant
  exact fun _ h => h.inv

/-- Settles O49: the live stack entries are bounded by the invariant, the others by the width of their words. -/
theorem reachableStatesMeetTheBounds : Obligations.ReachableStatesMeetTheBounds := by
  unfold Obligations.ReachableStatesMeetTheBounds
  intro s h
  exact ⟨fun k => Nat.le_of_lt_succ (s.reg k).isLt, Nat.le_of_lt_succ s.dt.isLt, Nat.le_of_lt_succ s.st.isLt,
    Nat.le_of_lt_succ s.idx.isLt, fun k => Nat.le_of_lt_succ (s.stackAt k).isLt, Nat.le_of_lt_succ s.sp.isLt,
    h.inv.stack⟩

/-- Settles O48. -/
theorem resetMeetsTheInvariant : Obligations.ResetMeetsTheInvariant := by
  unfold Obligations.ResetMeetsTheInvariant
  exact ⟨State.inv_resetWith defaultConfig 0, State.inv_resetWith⟩

/-- Settles O56: the memory list after reset is empty, so every byte reads as its reset contents. -/
theorem resetRestoresEveryPieceOfState : Obligations.ResetRestoresEveryPieceOfState := by
  unfold Obligations.ResetRestoresEveryPieceOfState
  intro s
  refine ⟨s.doReset, rfl, fun k => ?_, rfl, rfl, rfl, fun k => ?_, rfl, rfl, Display.pixel_blank, fun k => ?_, rfl, rfl,
    fun k => ?_, fun a ha => ?_, rfl⟩
  · exact Vector.getElem_replicate k.isLt
  · exact Vector.getElem_replicate k.isLt
  · exact Vector.getElem_replicate k.isLt
  · exact resetByte_font s.cfg k
  · exact resetByte_of_out s.cfg ha

end Sys2Proof.Proofs
end

section
/-! SUPPORT. Memory as instructions write it and as the fetch reads it (20_memory.md): which bytes can change, what
Fx55 leaves at I, and the fetch's three outcomes. -/

namespace Sys2Proof.Machine

open Sys2Proof.Claims

/-! ### Writes (R39, R48) -/

@[simp] theorem State.drawSprite_byteAt (s : State) (x y : Reg) (n a : Nat) :
    (s.drawSprite x y n).byteAt a = s.byteAt a := rfl

/-- A store changes no byte outside the addresses it writes. -/
theorem State.mem_range_of_byteAt_storeBytes_ne {s : State} {base a : Nat} {bs : List Byte}
    (h : (s.storeBytes base bs).byteAt a ≠ s.byteAt a) : base ≤ a ∧ a < base + bs.length := by
  by_contra hout
  exact h (State.byteAt_storeBytes_of_out s base bs a (by omega))

/-- R39: the instructions that write memory, and the bytes each writes. -/
theorem Executes.writer_of_byteAt_ne {s t : State} {i : Instr} {a : Nat} (h : Executes s i t)
    (ha : t.byteAt a ≠ s.byteAt a) :
    (∃ x, i = .ldB x ∧ s.base ≤ a ∧ a ≤ s.base + 2) ∨
    (∃ x, i = .stRegs x ∧ s.base ≤ a ∧ a ≤ s.base + x.val) := by
  cases h
  case ldB x _ =>
    obtain ⟨hlo, hhi⟩ := State.mem_range_of_byteAt_storeBytes_ne ha
    exact .inl ⟨x, rfl, hlo, Nat.le_of_lt_succ hhi⟩
  case stRegs x _ =>
    obtain ⟨hlo, hhi⟩ := State.mem_range_of_byteAt_storeBytes_ne ha
    rw [State.length_regsUpTo] at hhi
    exact .inr ⟨x, rfl, hlo, Nat.le_of_lt_succ hhi⟩
  all_goals simp at ha

theorem execStRegs_of_ok {s : State} {x : Reg} (h : s.base + x.val < 0x1000) :
    execStRegs x s = .next (s.storeBytes s.base (s.regsUpTo x)).advance :=
  withRange_of_ok _ _ _ _ _ (.inr h)

/-- Fx55's transfer: `M[I + k]` takes `V[k]` for k up to x (R107). -/
theorem State.byteAt_storeBytes_regsUpTo (s : State) (base : Nat) {x k : Reg} (hk : k ≤ x) :
    (s.storeBytes base (s.regsUpTo x)).byteAt (base + k.val) = s.reg k := by
  rw [State.byteAt_storeBytes_of_in s base _ k.val (by rw [State.length_regsUpTo]; exact Nat.lt_succ_of_le hk),
    State.getElem_regsUpTo]

/-! ### Fetch (R45, R46) -/

theorem wordOfBytes_eq_ofNat (hi lo : Byte) :
    wordOfBytes hi lo = BitVec.ofNat 16 (hi.toNat * 0x100 + lo.toNat) := by
  rw [← wordOfBytes_toNat, BitVec.ofNat_toNat, BitVec.setWidth_eq]

theorem State.fetch_eq_wordAt {s : State} (heven : s.pc.toNat % 2 = 0) (hlow : s.pc.toNat < 0x1000) :
    s.fetch = .ok (wordAt s s.pc.toNat) := by
  rw [State.fetch_of_ok s heven hlow, wordOfBytes_eq_ofNat]
  rfl

/-- The word Fx55 leaves at I: V[0] is its high byte and V[1] its low byte. -/
theorem State.wordAt_storeBytes_regsUpTo (s : State) (base : Nat) {x : Reg} (hx : 1 ≤ x.val) :
    wordAt (s.storeBytes base (s.regsUpTo x)) base =
      BitVec.ofNat 16 ((s.reg 0).toNat * 0x100 + (s.reg 1).toNat) := by
  have hhi : (s.storeBytes base (s.regsUpTo x)).byteAt base = s.reg 0 :=
    s.byteAt_storeBytes_regsUpTo base (Fin.zero_le x)
  have hlo : (s.storeBytes base (s.regsUpTo x)).byteAt (base + 1) = s.reg 1 :=
    s.byteAt_storeBytes_regsUpTo (k := 1) base hx
  rw [wordAt, hhi, hlo]

theorem step_of_fetch_error {s : State} {k : FaultKind} {a : Option Nat} (hrun : s.halt = none)
    (hf : s.fetch = .error (k, a)) : step s = .next (s.raise k none a) := by
  rw [step, hrun, hf]

/-- R121: the halt is all that a fault changes. -/
theorem State.changesOnly_raise (s : State) (k : FaultKind) (w : Option Word) (a : Option Nat) :
    ChangesOnly [.halt] s (s.raise k w a) := by
  simp [ChangesOnly]

end Sys2Proof.Machine
end

section
/-! The obligations of memory (20_memory.md), each settled by the lemmas above. -/

namespace Sys2Proof.Proofs

open Sys2Proof.Machine Sys2Proof.Claims

/-- Settles O40, by the ways an instruction can end: only Fx33 and Fx55 store bytes. -/
theorem onlyTwoInstructionsWriteMemory : Obligations.OnlyTwoInstructionsWriteMemory := by
  unfold Obligations.OnlyTwoInstructionsWriteMemory
  exact fun _ _ _ _ he ha => (exec_executes he).writer_of_byteAt_ne ha

/-- Settles O7, one clause for each outcome of the fetch. -/
theorem fetchChecksThenReadsTheWord : Obligations.FetchChecksThenReadsTheWord := by
  unfold Obligations.FetchChecksThenReadsTheWord
  refine fun s hrun => ⟨fun hodd => ?_, fun heven hhigh => ?_, fun heven hlow => ?_⟩
  · exact ⟨_, step_of_fetch_error hrun (s.fetch_of_odd hodd), rfl, s.changesOnly_raise _ _ _⟩
  · exact ⟨_, step_of_fetch_error hrun (s.fetch_of_high heven (by omega)), rfl, s.changesOnly_raise _ _ _⟩
  · exact State.fetch_eq_wordAt heven (by omega)

/-- Settles O34: the next fetch is at pc + 2 = I, where Fx55 has stored V[0] and V[1]. -/
theorem storedWordIsFetchedNext : Obligations.StoredWordIsFetchedNext := by
  unfold Obligations.StoredWordIsFetchedNext
  rintro s x ⟨-, heven, hlow⟩ hpc hx hidx hrange
  have hI : s.idx.toNat = s.pc.toNat + 2 := by rw [hidx, toNat_pc_add_two hlow]
  refine ⟨_, execStRegs_of_ok hrange, (State.fetch_eq_wordAt ?_ ?_).trans (congrArg Except.ok ?_)⟩ <;>
    rw [State.advance_pc, State.storeBytes_pc, ← hidx]
  · omega
  · omega
  · exact s.wordAt_storeBytes_regsUpTo s.base hx

end Sys2Proof.Proofs
end

section
/-! SUPPORT. What the decoder answers (30_encoding.md R60 to R64): an instruction exactly when the word is that
instruction's encoding, `Unknown` exactly on the illegal words. -/

namespace Sys2Proof

open Sys2Proof.Claims

/-! ### Fields given as numbers (R57) -/

theorem fieldOp_eq_iff (w : Word) (op : BitVec 4) : fieldOp w = op ↔ w.toNat / 0x1000 = op.toNat := by
  rw [← BitVec.toNat_inj, fieldOp_toNat]

theorem fieldN_eq_iff (w : Word) (n : BitVec 4) : fieldN w = n ↔ w.toNat % 0x10 = n.toNat := by
  rw [← BitVec.toNat_inj, fieldN_toNat]

theorem fieldKK_eq_iff (w : Word) (kk : Byte) : fieldKK w = kk ↔ w.toNat % 0x100 = kk.toNat := by
  rw [← BitVec.toNat_inj, fieldKK_toNat]

/-! ### A word is put together again from the fields a layout keeps (R59) -/

section Layouts

variable {w : Word} {op n : BitVec 4} {kk : Byte}

theorem wordNNN_of_op (hop : fieldOp w = op) : wordNNN op (fieldNNN w) = w :=
  hop ▸ (word_eq_wordNNN w).symm

theorem wordXKK_of_op (hop : fieldOp w = op) : wordXKK op (fieldX w) (fieldKK w) = w :=
  hop ▸ (word_eq_wordXKK w).symm

theorem wordXKK_of_op_kk (h : fieldOp w = op ∧ fieldKK w = kk) : wordXKK op (fieldX w) kk = w :=
  h.2 ▸ wordXKK_of_op h.1

theorem wordXYN_of_op (hop : fieldOp w = op) : wordXYN op (fieldX w) (fieldY w) (fieldN w) = w :=
  hop ▸ (word_eq_wordXYN w).symm

theorem wordXYN_of_op_n (h : fieldOp w = op ∧ fieldN w = n) : wordXYN op (fieldX w) (fieldY w) n = w :=
  h.2 ▸ wordXYN_of_op h.1

end Layouts

/-- The height of Dxyn is `n`, read as a number. -/
theorem encode_drw_of_op {w : Word} (hop : fieldOp w = 0xD#4) :
    encode (.drw (fieldX w) (fieldY w) (fieldN w).toNat) = w := by
  rw [encode, BitVec.ofNat_toNat, BitVec.setWidth_eq, wordXYN_of_op hop]

theorem wf_drw_fieldN (x y : Reg) (w : Word) : (Instr.drw x y (fieldN w).toNat).wf = true :=
  decide_eq_true (fieldN w).isLt

/-! ### The verdict is right -/

/-- What a verdict claims about the word: that it is the encoding of the well-formed instruction answered, or that it
is illegal. -/
def Decoded.Sound (w : Word) : Decoded → Prop
  | .known i => i.wf = true ∧ encode i = w
  | .unknown => IllegalWord w

section Families

variable {w : Word}

theorem decodeFamily0_sound (hop : fieldOp w = 0x0#4) : (decodeFamily0 w).Sound w := by
  unfold decodeFamily0
  split
  · next hw => exact ⟨rfl, hw.symm⟩
  split
  · next hw => exact ⟨rfl, hw.symm⟩
  · next hcls hret =>
    exact .inl ⟨(fieldOp_eq_iff w _).mp hop, fun h => hcls (BitVec.eq_of_toNat_eq h),
      fun h => hret (BitVec.eq_of_toNat_eq h)⟩

theorem decodeFamily5_sound (hop : fieldOp w = 0x5#4) : (decodeFamily5 w).Sound w := by
  unfold decodeFamily5
  split
  · next hn => exact ⟨rfl, wordXYN_of_op_n ⟨hop, hn⟩⟩
  · next hn => exact .inr (.inl ⟨(fieldOp_eq_iff w _).mp hop, mt (fieldN_eq_iff w 0x0#4).mpr hn⟩)

theorem decodeFamily8_sound (hop : fieldOp w = 0x8#4) : (decodeFamily8 w).Sound w := by
  unfold decodeFamily8
  split
  case h_10 =>
    refine .inr (.inr (.inl ⟨(fieldOp_eq_iff w _).mp hop, ?_⟩))
    simp only [fieldN_eq_iff, imp_false, BitVec.toNat_ofNat] at *
    simp only [List.mem_cons, List.not_mem_nil]
    omega
  all_goals exact ⟨rfl, wordXYN_of_op_n ⟨hop, ‹_›⟩⟩

theorem decodeFamily9_sound (hop : fieldOp w = 0x9#4) : (decodeFamily9 w).Sound w := by
  unfold decodeFamily9
  split
  · next hn => exact ⟨rfl, wordXYN_of_op_n ⟨hop, hn⟩⟩
  · next hn => exact .inr (.inr (.inr (.inl ⟨(fieldOp_eq_iff w _).mp hop, mt (fieldN_eq_iff w 0x0#4).mpr hn⟩)))

theorem decodeFamilyE_sound (hop : fieldOp w = 0xE#4) : (decodeFamilyE w).Sound w := by
  unfold decodeFamilyE
  split
  case h_3 =>
    refine .inr (.inr (.inr (.inr (.inl ⟨(fieldOp_eq_iff w _).mp hop, ?_⟩))))
    simp_all [fieldKK_eq_iff]
  all_goals exact ⟨rfl, wordXKK_of_op_kk ⟨hop, ‹_›⟩⟩

theorem decodeFamilyF_sound (hop : fieldOp w = 0xF#4) : (decodeFamilyF w).Sound w := by
  unfold decodeFamilyF
  split
  case h_10 =>
    refine .inr (.inr (.inr (.inr (.inr ⟨(fieldOp_eq_iff w _).mp hop, ?_⟩))))
    simp_all [fieldKK_eq_iff]
  all_goals exact ⟨rfl, wordXKK_of_op_kk ⟨hop, ‹_›⟩⟩

end Families

theorem decode_sound (w : Word) : (decode w).Sound w := by
  unfold decode
  split
  case h_1 hop => exact decodeFamily0_sound hop
  case h_2 | h_3 | h_11 | h_12 => exact ⟨rfl, wordNNN_of_op ‹_›⟩
  case h_4 | h_5 | h_7 | h_8 | h_13 => exact ⟨rfl, wordXKK_of_op ‹_›⟩
  case h_6 hop => exact decodeFamily5_sound hop
  case h_9 hop => exact decodeFamily8_sound hop
  case h_10 hop => exact decodeFamily9_sound hop
  case h_14 hop => exact ⟨wf_drw_fieldN _ _ w, encode_drw_of_op hop⟩
  case h_15 hop => exact decodeFamilyE_sound hop
  case h_16 =>
    apply decodeFamilyF_sound
    apply nibble_eq_F <;> assumption

/-! ### Each encoding and each illegal word has its verdict -/

section Selected

/-! R60 selects the family by the top nibble. -/

variable {w : Word}

theorem decode_of_op0 (hop : fieldOp w = 0x0#4) : decode w = decodeFamily0 w := by rw [decode, hop]; rfl
theorem decode_of_op5 (hop : fieldOp w = 0x5#4) : decode w = decodeFamily5 w := by rw [decode, hop]; rfl
theorem decode_of_op8 (hop : fieldOp w = 0x8#4) : decode w = decodeFamily8 w := by rw [decode, hop]; rfl
theorem decode_of_op9 (hop : fieldOp w = 0x9#4) : decode w = decodeFamily9 w := by rw [decode, hop]; rfl
theorem decode_of_opE (hop : fieldOp w = 0xE#4) : decode w = decodeFamilyE w := by rw [decode, hop]; rfl
theorem decode_of_opF (hop : fieldOp w = 0xF#4) : decode w = decodeFamilyF w := by rw [decode, hop]; rfl

end Selected

/-- The decoder reads back the fields the layout of the instruction put in place. -/
theorem decode_encode {i : Instr} (hwf : i.wf = true) : decode (encode i) = .known i := by
  cases i
  case cls | ret => rfl
  case jp | call | ldI | jpV0 => simp only [encode, decode, fieldOp_wordNNN, fieldNNN_wordNNN]
  case seK | sneK | ldK | addK | rnd =>
    simp only [encode, decode, fieldOp_wordXKK, fieldX_wordXKK, fieldKK_wordXKK]
  case seR =>
    rw [encode, decode_of_op5 (fieldOp_wordXYN ..), decodeFamily5, if_pos (fieldN_wordXYN ..), fieldX_wordXYN,
      fieldY_wordXYN]
  case ldR | or | and | xor | addR | sub | shr | subn | shl =>
    simp only [encode, decode_of_op8 (fieldOp_wordXYN ..), decodeFamily8, fieldX_wordXYN, fieldY_wordXYN,
      fieldN_wordXYN]
  case sneR =>
    rw [encode, decode_of_op9 (fieldOp_wordXYN ..), decodeFamily9, if_pos (fieldN_wordXYN ..), fieldX_wordXYN,
      fieldY_wordXYN]
  case drw x y n =>
    have hn : n < 16 := of_decide_eq_true hwf
    simp only [encode, decode, fieldOp_wordXYN, fieldX_wordXYN, fieldY_wordXYN, fieldN_wordXYN,
      BitVec.toNat_ofNat, Nat.mod_eq_of_lt hn]
  case skp | sknp =>
    simp only [encode, decode_of_opE (fieldOp_wordXKK ..), decodeFamilyE, fieldX_wordXKK, fieldKK_wordXKK]
  case ldVdt | ldVk | ldDtv | ldStv | addI | ldF | ldB | stRegs | ldRegs =>
    simp only [encode, decode_of_opF (fieldOp_wordXKK ..), decodeFamilyF, fieldX_wordXKK, fieldKK_wordXKK]

theorem decode_eq_known_iff (w : Word) (i : Instr) : decode w = .known i ↔ i.wf = true ∧ encode i = w := by
  refine ⟨fun h => ?_, fun ⟨hwf, he⟩ => he ▸ decode_encode hwf⟩
  have hs := decode_sound w
  rwa [h] at hs

theorem decode_of_illegal {w : Word} (h : IllegalWord w) : decode w = .unknown := by
  have hfam (op : BitVec 4) := (fieldOp_eq_iff w op).mpr
  rcases h with ⟨hop, hcls, hret⟩ | ⟨hop, hn⟩ | ⟨hop, hn⟩ | ⟨hop, hn⟩ | ⟨hop, hkk⟩ | ⟨hop, hkk⟩
  · rw [decode_of_op0 (hfam _ hop), decodeFamily0, if_neg (fun hw => hcls (congrArg BitVec.toNat hw)),
      if_neg (fun hw => hret (congrArg BitVec.toNat hw))]
  · rw [decode_of_op5 (hfam _ hop), decodeFamily5, if_neg (mt (fieldN_eq_iff w 0x0#4).mp hn)]
  · rw [decode_of_op8 (hfam _ hop), decodeFamily8]
    rw [← fieldN_toNat] at hn
    split
    case h_10 => rfl
    all_goals exact absurd (‹fieldN w = _› ▸ hn) (by decide)
  · rw [decode_of_op9 (hfam _ hop), decodeFamily9, if_neg (mt (fieldN_eq_iff w 0x0#4).mp hn)]
  · rw [decode_of_opE (hfam _ hop), decodeFamilyE]
    rw [← fieldKK_toNat] at hkk
    split
    case h_3 => rfl
    all_goals exact absurd (‹fieldKK w = _› ▸ hkk) (by decide)
  · rw [decode_of_opF (hfam _ hop), decodeFamilyF]
    rw [← fieldKK_toNat] at hkk
    split
    case h_10 => rfl
    all_goals exact absurd (‹fieldKK w = _› ▸ hkk) (by decide)

theorem decode_eq_unknown_iff (w : Word) : decode w = .unknown ↔ IllegalWord w := by
  refine ⟨fun h => ?_, decode_of_illegal⟩
  have hs := decode_sound w
  rwa [h] at hs

theorem not_illegalWord_iff (w : Word) : ¬ IllegalWord w ↔ ∃ i, decode w = .known i := by
  rw [← decode_eq_unknown_iff]
  cases decode w <;> simp

end Sys2Proof
end

section
/-! SUPPORT. The opcode table against the decoder (30_encoding.md R60, R61), row by row and instruction by
instruction. -/

namespace Sys2Proof

/-- Every word on the row decodes to an instruction of the row's mnemonic. -/
def OpcodeRow.Selects (r : OpcodeRow) : Prop :=
  ∀ w : Word, w &&& r.mask = r.pattern → ∃ i, decode w = .known i ∧ i.mnemonic = r.mnemonic

/-! ### From a word on the row, one lemma per layout (R59) -/

section Layouts

variable {m : String} {p : Word}

theorem selects_whole {i : Instr} (h : i.wf = true ∧ encode i = p ∧ i.mnemonic = m) :
    OpcodeRow.Selects ⟨m, p, 0xFFFF#16⟩ := by
  obtain ⟨hwf, he, hm⟩ := h
  intro w hw
  have hp : p = w := hw.symm.trans BitVec.and_allOnes
  exact ⟨i, (decode_eq_known_iff w i).mpr ⟨hwf, he.trans hp⟩, hm⟩

theorem selects_NNN (mk : Addr12 → Instr) (h : ∀ nnn, (mk nnn).wf = true ∧
    encode (mk nnn) = wordNNN (BitVec.ofNat 4 (p.toNat / 0x1000)) nnn ∧ (mk nnn).mnemonic = m) :
    OpcodeRow.Selects ⟨m, p, 0xF000#16⟩ := by
  intro w hw
  obtain ⟨hwf, he, hm⟩ := h (fieldNNN w)
  exact ⟨_, (decode_eq_known_iff w _).mpr ⟨hwf, he.trans (wordNNN_of_op (fieldOp_of_F000 hw))⟩, hm⟩

theorem selects_XKK (mk : Reg → Byte → Instr) (h : ∀ x kk, (mk x kk).wf = true ∧
    encode (mk x kk) = wordXKK (BitVec.ofNat 4 (p.toNat / 0x1000)) x kk ∧ (mk x kk).mnemonic = m) :
    OpcodeRow.Selects ⟨m, p, 0xF000#16⟩ := by
  intro w hw
  obtain ⟨hwf, he, hm⟩ := h (fieldX w) (fieldKK w)
  exact ⟨_, (decode_eq_known_iff w _).mpr ⟨hwf, he.trans (wordXKK_of_op (fieldOp_of_F000 hw))⟩, hm⟩

theorem selects_XSUB (mk : Reg → Instr) (h : ∀ x, (mk x).wf = true ∧
    encode (mk x) = wordXKK (BitVec.ofNat 4 (p.toNat / 0x1000)) x (BitVec.ofNat 8 (p.toNat % 0x100)) ∧
    (mk x).mnemonic = m) : OpcodeRow.Selects ⟨m, p, 0xF0FF#16⟩ := by
  intro w hw
  obtain ⟨hwf, he, hm⟩ := h (fieldX w)
  exact ⟨_, (decode_eq_known_iff w _).mpr ⟨hwf, he.trans (wordXKK_of_op_kk (fields_of_F0FF hw))⟩, hm⟩

theorem selects_XYN (mk : Reg → Reg → Instr) (h : ∀ x y, (mk x y).wf = true ∧
    encode (mk x y) = wordXYN (BitVec.ofNat 4 (p.toNat / 0x1000)) x y (BitVec.ofNat 4 (p.toNat % 0x10)) ∧
    (mk x y).mnemonic = m) : OpcodeRow.Selects ⟨m, p, 0xF00F#16⟩ := by
  intro w hw
  obtain ⟨hwf, he, hm⟩ := h (fieldX w) (fieldY w)
  exact ⟨_, (decode_eq_known_iff w _).mpr ⟨hwf, he.trans (wordXYN_of_op_n (fields_of_F00F hw))⟩, hm⟩

theorem selects_drw : OpcodeRow.Selects ⟨"Dxyn", 0xD000#16, 0xF000#16⟩ :=
  fun w hw => ⟨_, (decode_eq_known_iff w _).mpr ⟨wf_drw_fieldN _ _ w, encode_drw_of_op (fieldOp_of_F000 hw)⟩, rfl⟩

end Layouts

/-! ### The 34 rows -/

theorem selects_rowsA : ∀ r ∈ opcodeRowsA, r.Selects := by
  simp only [opcodeRowsA, List.forall_mem_cons]
  refine ⟨?_, ?_, ?_, ?_, ?_, ?_, ?_, ?_, ?_, nofun⟩
  · exact selects_whole (i := .cls) ⟨rfl, rfl, rfl⟩
  · exact selects_whole (i := .ret) ⟨rfl, rfl, rfl⟩
  · exact selects_NNN .jp fun _ => ⟨rfl, rfl, rfl⟩
  · exact selects_NNN .call fun _ => ⟨rfl, rfl, rfl⟩
  · exact selects_XKK .seK fun _ _ => ⟨rfl, rfl, rfl⟩
  · exact selects_XKK .sneK fun _ _ => ⟨rfl, rfl, rfl⟩
  · exact selects_XYN .seR fun _ _ => ⟨rfl, rfl, rfl⟩
  · exact selects_XKK .ldK fun _ _ => ⟨rfl, rfl, rfl⟩
  · exact selects_XKK .addK fun _ _ => ⟨rfl, rfl, rfl⟩

theorem selects_rowsB : ∀ r ∈ opcodeRowsB, r.Selects := by
  simp only [opcodeRowsB, List.forall_mem_cons]
  refine ⟨?_, ?_, ?_, ?_, ?_, ?_, ?_, ?_, ?_, nofun⟩
  · exact selects_XYN .ldR fun _ _ => ⟨rfl, rfl, rfl⟩
  · exact selects_XYN .or fun _ _ => ⟨rfl, rfl, rfl⟩
  · exact selects_XYN .and fun _ _ => ⟨rfl, rfl, rfl⟩
  · exact selects_XYN .xor fun _ _ => ⟨rfl, rfl, rfl⟩
  · exact selects_XYN .addR fun _ _ => ⟨rfl, rfl, rfl⟩
  · exact selects_XYN .sub fun _ _ => ⟨rfl, rfl, rfl⟩
  · exact selects_XYN .shr fun _ _ => ⟨rfl, rfl, rfl⟩
  · exact selects_XYN .subn fun _ _ => ⟨rfl, rfl, rfl⟩
  · exact selects_XYN .shl fun _ _ => ⟨rfl, rfl, rfl⟩

theorem selects_rowsC : ∀ r ∈ opcodeRowsC, r.Selects := by
  simp only [opcodeRowsC, List.forall_mem_cons]
  refine ⟨?_, ?_, ?_, ?_, ?_, ?_, ?_, ?_, ?_, nofun⟩
  · exact selects_XYN .sneR fun _ _ => ⟨rfl, rfl, rfl⟩
  · exact selects_NNN .ldI fun _ => ⟨rfl, rfl, rfl⟩
  · exact selects_NNN .jpV0 fun _ => ⟨rfl, rfl, rfl⟩
  · exact selects_XKK .rnd fun _ _ => ⟨rfl, rfl, rfl⟩
  · exact selects_drw
  · exact selects_XSUB .skp fun _ => ⟨rfl, rfl, rfl⟩
  · exact selects_XSUB .sknp fun _ => ⟨rfl, rfl, rfl⟩
  · exact selects_XSUB .ldVdt fun _ => ⟨rfl, rfl, rfl⟩
  · exact selects_XSUB .ldVk fun _ => ⟨rfl, rfl, rfl⟩

theorem selects_rowsD : ∀ r ∈ opcodeRowsD, r.Selects := by
  simp only [opcodeRowsD, List.forall_mem_cons]
  refine ⟨?_, ?_, ?_, ?_, ?_, ?_, ?_, nofun⟩
  · exact selects_XSUB .ldDtv fun _ => ⟨rfl, rfl, rfl⟩
  · exact selects_XSUB .ldStv fun _ => ⟨rfl, rfl, rfl⟩
  · exact selects_XSUB .addI fun _ => ⟨rfl, rfl, rfl⟩
  · exact selects_XSUB .ldF fun _ => ⟨rfl, rfl, rfl⟩
  · exact selects_XSUB .ldB fun _ => ⟨rfl, rfl, rfl⟩
  · exact selects_XSUB .stRegs fun _ => ⟨rfl, rfl, rfl⟩
  · exact selects_XSUB .ldRegs fun _ => ⟨rfl, rfl, rfl⟩

theorem selects_of_mem : ∀ r ∈ opcodeTable, r.Selects := by
  simp only [opcodeTable, List.forall_mem_append]
  exact ⟨⟨⟨selects_rowsA, selects_rowsB⟩, selects_rowsC⟩, selects_rowsD⟩

/-! ### From an instruction to its row -/

theorem mnemonic_nodup : (opcodeTable.map OpcodeRow.mnemonic).Nodup := by decide

open Laws in
theorem encode_on_row (i : Instr) : TableRow.Statement i := by
  cases i
  exacts [
    TableRow.cls, TableRow.ret, TableRow.jp _, TableRow.call _, TableRow.seK _ _, TableRow.sneK _ _,
    TableRow.seR _ _, TableRow.ldK _ _, TableRow.addK _ _, TableRow.ldR _ _, TableRow.or _ _, TableRow.and _ _,
    TableRow.xor _ _, TableRow.addR _ _, TableRow.sub _ _, TableRow.shr _ _, TableRow.subn _ _,
    TableRow.shl _ _, TableRow.sneR _ _, TableRow.ldI _, TableRow.jpV0 _, TableRow.rnd _ _, TableRow.drw _ _ _,
    TableRow.skp _, TableRow.sknp _, TableRow.ldVdt _, TableRow.ldVk _, TableRow.ldDtv _, TableRow.ldStv _,
    TableRow.addI _, TableRow.ldF _, TableRow.ldB _, TableRow.stRegs _, TableRow.ldRegs _]

/-- Mask and match against the decoder: the row of the instruction a word encodes is the one row with its mnemonic. -/
theorem on_row_iff (w : Word) {r : OpcodeRow} (hr : r ∈ opcodeTable) :
    w &&& r.mask = r.pattern ↔ ∃ i, decode w = .known i ∧ i.mnemonic = r.mnemonic := by
  refine ⟨selects_of_mem r hr w, fun ⟨i, hd, hm⟩ => ?_⟩
  obtain ⟨r', hr', hm', hrow⟩ := encode_on_row i
  obtain rfl : r' = r := List.inj_on_of_nodup_map mnemonic_nodup hr' hr (hm'.trans hm)
  rwa [((decode_eq_known_iff w i).mp hd).2] at hrow

end Sys2Proof
end

section
/-! SUPPORT. One step as the host sees it (30_encoding.md R67 to R69): which instruction runs, where pc goes, and the
three outcomes. -/

namespace Sys2Proof.Machine

open Sys2Proof.Claims

/-! ### Execution (R67) -/

theorem step_of_fetch_known {s : State} {w : Word} {i : Instr} (hrun : s.halt = none) (hf : s.fetch = .ok w)
    (hd : decode w = .known i) : step s = exec i s := by
  simp only [step, hrun, hf, hd]

/-! ### The new pc (R68) -/

/-- The default: what else an instruction writes before it goes on does not matter. -/
theorem State.toNat_advance_pc {s u : State} (hu : u.pc = s.pc) :
    u.advance.pc.toNat = (s.pc.toNat + 2) % 0x10000 :=
  hu ▸ BitVec.toNat_add u.pc 2

/-- A skip adds 4 exactly when its condition holds. -/
theorem State.toNat_skipIf_pc (s : State) {b : Bool} {p : Prop} [Decidable p] (h : b = true ↔ p) :
    (s.skipIf b).pc.toNat = (s.pc.toNat + if p then 4 else 2) % 0x10000 := by
  rw [State.skipIf_pc, BitVec.toNat_add, if_congr h rfl rfl]
  split <;> rfl

theorem toNat_jpV0 (nnn : Addr12) (b : Byte) :
    (zext16 nnn + byteToWord b).toNat = (nnn.toNat + b.toNat) % 0x10000 := by
  have hb : (byteToWord b).toNat = b.toNat := by
    rw [byteToWord, BitVec.toNat_setWidth, Nat.mod_eq_of_lt (b.isLt.trans (by decide))]
  rw [BitVec.toNat_add, toNat_zext16, hb]

/-- The key a key skip tests, named by its number. -/
theorem State.key_eq_iff_exists (s : State) {n : Nat} (h : n < 16) (b : Bool) :
    s.key ⟨n, h⟩ = b ↔ ∃ k : Reg, k.val = n ∧ s.key k = b :=
  ⟨fun hk => ⟨⟨n, h⟩, rfl, hk⟩, fun ⟨_, hn, hk⟩ => by subst hn; exact hk⟩

/-- The table of R68: an instruction that does not take the halt leaves pc where its row says. -/
theorem Executes.toNat_pc {s t : State} {i : Instr} (h : Executes s i t) (ht : t.halt = none) :
    t.pc.toNat = pcAfter i s := by
  cases h
  case raised => simp at ht
  case jp nnn | call nnn _ => exact toNat_zext16 nnn
  case jpV0 nnn => exact toNat_jpV0 nnn _
  case ret hpos => rw [pcAfter, dif_pos hpos, State.jumpTo_pc]
  case seK | seR => exact s.toNat_skipIf_pc beq_iff_eq
  case sneK | sneR => exact s.toNat_skipIf_pc bne_iff_ne
  case skp x hx => exact s.toNat_skipIf_pc (s.key_eq_iff_exists hx true)
  case sknp x hx => exact s.toNat_skipIf_pc ((Bool.not_eq_true' _).to_iff.trans (s.key_eq_iff_exists hx false))
  case waits x hkeys => rw [pcAfter, if_neg (by simp [hkeys])]
  case ldVk x k hk => rw [pcAfter, if_pos ⟨k, hk⟩]; exact State.toNat_advance_pc rfl
  all_goals exact State.toNat_advance_pc (by simp)

/-! ### The outcomes (R69) -/

theorem State.pressedKeys_eq_nil_iff (s : State) : s.pressedKeys = [] ↔ ∀ k, s.key k = false := by
  simp [List.eq_nil_iff_forall_not_mem, State.mem_pressedKeys]

/-- The test the `step()` transaction makes is the condition R149 names. -/
theorem State.isWaiting_iff (s : State) : s.isWaiting = true ↔ s.waiting := by
  rw [State.isWaiting, State.waiting, Bool.and_eq_true, Bool.and_eq_true, Option.isNone_iff_eq_none,
    List.isEmpty_iff, s.pressedKeys_eq_nil_iff, and_assoc, and_comm (a := ∀ k, s.key k = false)]
  refine and_congr_right fun _ => and_congr_left fun _ => ⟨fun h => ?_, fun ⟨w, x, hf, hd⟩ => by simp only [hf, hd]⟩
  split at h
  · split at h
    · exact ⟨_, _, ‹_›, ‹_›⟩
    · cases h
  · cases h

/-- A waiting machine stays as it is. -/
theorem State.waiting.step_eq {s : State} (h : s.waiting) : step s = .next s := by
  obtain ⟨hrun, ⟨w, x, hf, hd⟩, hkeys⟩ := h
  rw [step_of_fetch_known hrun hf hd]
  rcases execLdVk_cases x s with ⟨-, hs⟩ | ⟨k, hk, -⟩
  · exact hs
  · simp [hkeys k] at hk

/-- R121: a step that takes the halt changes nothing else. -/
theorem step_halts {s t : State} {r : FaultRecord} (hs : step s = .next t) (hr : t.halt = some r) :
    t = { s with halt := some r } ∧ r.pc = s.pc := by
  obtain ⟨hrun, ⟨k, w, a, rfl⟩ | ⟨-, -, i, he⟩⟩ := step_eq_next hs
  · cases hr; exact ⟨rfl, rfl⟩
  · rcases exec_completesOrRaises i s with ⟨u, hu, huh⟩ | ⟨k, w, a, hraise⟩
    · cases hu.symm.trans he
      rw [huh, hrun] at hr; cases hr
    · cases hraise.symm.trans he
      cases hr; exact ⟨rfl, rfl⟩

/-- A running machine's step answers a next state. -/
theorem step_of_running {s : State} (h : s.halt = none) : ∃ t, step s = .next t := by
  rcases step_cases s with ⟨r, hh, -⟩ | ⟨-, k, a, -, hs⟩ | ⟨-, w, -, -, hs⟩ | ⟨-, w, i, -, -, hs⟩
  · cases h.symm.trans hh
  · exact ⟨_, hs⟩
  · exact ⟨_, hs⟩
  · rw [hs]; exact exec_eq_next i s

theorem stepTransaction_of_halted {s : State} {r : FaultRecord} (h : s.halt = some r) :
    s.stepTransaction = (s, .fault r) := by
  simp only [State.stepTransaction, step, h]

theorem stepTransaction_of_halts {s t : State} {r : FaultRecord} (hs : step s = .next t) (ht : t.halt = some r) :
    s.stepTransaction = (t, .fault r) := by
  simp only [State.stepTransaction, hs, ht]

theorem stepTransaction_of_runs_on {s t : State} (hs : step s = .next t) (ht : t.halt = none) :
    s.stepTransaction = (t, if s.isWaiting then .waiting else .ok) := by
  simp only [State.stepTransaction, hs, ht]

/-- R69: the three outcomes, `Fault` of a halted machine and of a step that takes the halt among them. -/
theorem stepTransaction_outcome (s : State) :
    (∃ t, s.stepTransaction = (t, .ok) ∧ t.halt = none ∧ ¬ s.waiting) ∨
    (s.stepTransaction = (s, .waiting) ∧ s.waiting) ∨
    (∃ r, s.stepTransaction = ({ s with halt := some r }, .fault r)) := by
  cases hh : s.halt with
  | some r => exact .inr (.inr ⟨r, by rw [stepTransaction_of_halted hh, ← hh]⟩)
  | none =>
    obtain ⟨t, hs⟩ := step_of_running hh
    cases ht : t.halt with
    | some r =>
      obtain ⟨rfl, -⟩ := step_halts hs ht
      exact .inr (.inr ⟨r, stepTransaction_of_halts hs ht⟩)
    | none =>
      by_cases hw : s.waiting
      · refine .inr (.inl ⟨?_, hw⟩)
        rw [stepTransaction_of_runs_on hw.step_eq hh, if_pos (s.isWaiting_iff.mpr hw)]
      · refine .inl ⟨t, ?_, ht, hw⟩
        rw [stepTransaction_of_runs_on hs ht, if_neg (mt s.isWaiting_iff.mp hw)]

end Sys2Proof.Machine
end

section
/-! The obligations of the encoding and of one step (30_encoding.md), each settled by the lemmas above. -/

namespace Sys2Proof.Proofs

open Sys2Proof.Machine Sys2Proof.Claims

/-- Settles O1: the decoder reads back the fields the encoder put in place. -/
theorem decodeEncodeRoundTrip : Obligations.DecodeEncodeRoundTrip := by
  unfold Obligations.DecodeEncodeRoundTrip
  exact fun _ hwf => decode_encode hwf

/-- Settles O2, by the decoder's families: each answer keeps every field of the word. -/
theorem encodeDecodeRoundTrip : Obligations.EncodeDecodeRoundTrip := by
  unfold Obligations.EncodeDecodeRoundTrip
  exact fun w i => (decode_eq_known_iff w i).mp

/-- Settles O3, row by row one way and instruction by instruction the other. -/
theorem decoderFollowsTheOpcodeTable : Obligations.DecoderFollowsTheOpcodeTable := by
  unfold Obligations.DecoderFollowsTheOpcodeTable
  exact fun w _ hr => on_row_iff w hr

/-- Settles O4: a word that is not illegal decodes to an instruction, and every instruction has its row. -/
theorem unknownWordsAreExactlyTheIllegalOnes : Obligations.UnknownWordsAreExactlyTheIllegalOnes := by
  unfold Obligations.UnknownWordsAreExactlyTheIllegalOnes
  refine fun w => ⟨(decode_eq_unknown_iff w).symm, (not_illegalWord_iff w).trans ⟨?_, ?_⟩, rfl⟩
  · rintro ⟨i, hd⟩
    obtain ⟨r, hr, hm, -⟩ := encode_on_row i
    exact ⟨i, hd, r, hr, hm⟩
  · rintro ⟨i, hd, -⟩
    exact ⟨i, hd⟩

/-- Settles O12, by the three outcomes of a step. -/
theorem stepOutcomeIsOkWaitingOrFault : Obligations.StepOutcomeIsOkWaitingOrFault := by
  unfold Obligations.StepOutcomeIsOkWaitingOrFault
  intro s t o h
  change s.stepTransaction = (t, o) at h
  rcases stepTransaction_outcome s with ⟨u, hs, hu, hw⟩ | ⟨hs, hw⟩ | ⟨r, hs⟩ <;> cases hs.symm.trans h
  · exact .inl ⟨rfl, hu, hw⟩
  · exact .inr (.inl ⟨rfl, rfl, hw⟩)
  · exact .inr (.inr ⟨r, rfl, rfl, rfl⟩)

/-- Settles O44, by the ways an instruction can end. -/
theorem pcAfterEachInstruction : Obligations.PcAfterEachInstruction := by
  unfold Obligations.PcAfterEachInstruction
  exact fun _ _ _ _ he ht => (exec_executes he).toNat_pc ht

/-- Settles O5, by running the decoder on each word. -/
theorem sampleWordsDecodeAsTheSpecSays : Obligations.SampleWordsDecodeAsTheSpecSays := by
  unfold Obligations.SampleWordsDecodeAsTheSpecSays
  decide

/-- Settles O6: the fetch reads the word at pc, and `step` hands its instruction to `exec`. -/
theorem stepExecutesTheDecodedInstruction : Obligations.StepExecutesTheDecodedInstruction := by
  unfold Obligations.StepExecutesTheDecodedInstruction
  rintro s i ⟨hrun, heven, hlow⟩ hd
  exact step_of_fetch_known hrun (State.fetch_eq_wordAt heven hlow) hd

end Sys2Proof.Proofs
end

section
/-! SUPPORT. The sprite XOR compositor (40_display.md R72 to R74): what plotting does to every pixel at once, from one
sprite byte to the whole sprite. -/

namespace Sys2Proof.Machine

open Sys2Proof.Claims

/-! ### Inverting the pixels of a set -/

/-- The pixels of `P` are inverted and no other pixel changes. -/
def Display.InvertedOn (P : Fin 64 → Fin 32 → Prop) (d e : Display) : Prop :=
  ∀ c r, (P c r → e.pixel c r = !d.pixel c r) ∧ (¬ P c r → e.pixel c r = d.pixel c r)

/-- XOR twice cancels (R75). -/
theorem Display.InvertedOn.pixel_twice {P : Fin 64 → Fin 32 → Prop} {d e f : Display} (h : InvertedOn P d e)
    (h' : InvertedOn P e f) (c : Fin 64) (r : Fin 32) : f.pixel c r = d.pixel c r := by
  by_cases hp : P c r
  · rw [(h' c r).1 hp, (h c r).1 hp, Bool.not_not]
  · rw [(h' c r).2 hp, (h c r).2 hp]

/-- From the display and collision `a`, plotting the pixels of `P` gives `b`: they are inverted, and it is a collision
if one of them was 1. -/
structure Plots (P : Fin 64 → Fin 32 → Prop) (a b : Display × Bool) : Prop where
  inverted : Display.InvertedOn P a.1 b.1
  collision : b.2 = true ↔ a.2 = true ∨ ∃ c r, P c r ∧ a.1.pixel c r = true

theorem Plots.nothing (a : Display × Bool) : Plots (fun _ _ => False) a a where
  inverted _ _ := ⟨False.elim, fun _ => rfl⟩
  collision := by simp

/-- Plotting one set of pixels and then a disjoint one plots their union: the second finds its pixels as they were. -/
theorem Plots.union {P Q : Fin 64 → Fin 32 → Prop} {a b e : Display × Bool} (hP : Plots P a b) (hQ : Plots Q b e)
    (disj : ∀ c r, P c r → ¬ Q c r) : Plots (fun c r => P c r ∨ Q c r) a e where
  inverted c r := by
    obtain ⟨inP, outP⟩ := hP.inverted c r
    obtain ⟨inQ, outQ⟩ := hQ.inverted c r
    refine ⟨?_, fun h => ?_⟩
    · rintro (h | h)
      · rw [outQ (disj c r h), inP h]
      · rw [inQ h, outP fun hp => disj c r hp h]
    · rw [outQ (mt .inr h), outP (mt .inl h)]
  collision := by
    have same : ∀ c r, Q c r ∧ b.1.pixel c r = true ↔ Q c r ∧ a.1.pixel c r = true := fun c r =>
      and_congr_right fun hq => by rw [(hP.inverted c r).2 fun hp => disj c r hp hq]
    simp only [hQ.collision, hP.collision, same, or_and_right, exists_or, or_assoc]

/-! ### One sprite byte, and the bytes from a row offset on -/

/-- Some set bit of a sprite byte lands on column c. -/
def ByteSets (ox b : Byte) (c : Fin 64) : Prop := ∃ j, j < 8 ∧ b.getLsbD (7 - j) = true ∧ c = spriteCol ox j

theorem plotByte_plots (ox b : Byte) (r : Fin 32) (acc : Display × Bool) :
    Plots (fun c r' => r' = r ∧ ByteSets ox b c) acc (plotByte ox r b acc) where
  inverted := (plotByte_spec ox b r acc).1
  collision := by
    rw [(plotByte_spec ox b r acc).2]
    refine or_congr_right ⟨?_, ?_⟩
    · rintro ⟨j, hj, hb, hp⟩
      exact ⟨_, _, ⟨rfl, j, hj, hb, rfl⟩, hp⟩
    · rintro ⟨_, _, ⟨rfl, j, hj, hb, rfl⟩, hp⟩
      exact ⟨j, hj, hb, hp⟩

/-- Some set bit of the sprite bytes lands on pixel (c, r), when the first of them is at row offset i. -/
def SpriteSetsFrom (ox oy : Byte) (i : Nat) (bs : List Byte) (c : Fin 64) (r : Fin 32) : Prop :=
  ∃ k, ∃ h : k < bs.length, r = spriteRow oy (i + k) ∧ ByteSets ox bs[k] c

theorem spriteSetsFrom_nil (ox oy : Byte) (i : Nat) : SpriteSetsFrom ox oy i [] = fun _ _ => False := by
  simp [funext_iff, SpriteSetsFrom]

theorem spriteSetsFrom_cons (ox oy : Byte) (i : Nat) (b : Byte) (bs : List Byte) :
    SpriteSetsFrom ox oy i (b :: bs) =
      fun c r => (r = spriteRow oy i ∧ ByteSets ox b c) ∨ SpriteSetsFrom ox oy (i + 1) bs c r := by
  funext c r
  rw [SpriteSetsFrom, ← Nat.or_exists_add_one]
  simp [SpriteSetsFrom, Nat.add_assoc, Nat.add_comm 1]

/-- R74: the rows of up to 15 bytes are distinct, so each byte finds its pixels as they were before the draw. -/
theorem plotBytes_plots (ox oy : Byte) {bs : List Byte} (hlen : bs.length ≤ 15) (i : Nat) (acc : Display × Bool) :
    Plots (SpriteSetsFrom ox oy i bs) acc (plotBytes ox oy i bs acc) := by
  induction bs generalizing i acc with
  | nil =>
    rw [spriteSetsFrom_nil]
    exact Plots.nothing acc
  | cons b bs ih =>
    rw [List.length_cons] at hlen
    rw [spriteSetsFrom_cons]
    refine (plotByte_plots ox b (spriteRow oy i) acc).union (ih (by omega) (i + 1) _) ?_
    rintro c r ⟨hr, -⟩ ⟨k, hk, hr', -⟩
    have := spriteRow_inj oy (by omega) (by omega) (hr.symm.trans hr')
    omega

/-! ### The whole sprite -/

theorem spriteSets_eq_from (ox oy : Byte) (bs : List Byte) : SpriteSets ox oy bs = SpriteSetsFrom ox oy 0 bs := by
  funext c r
  simp only [SpriteSets, SpriteSetsFrom, ByteSets, Fin.ext_iff, spriteCol_val, spriteRow_val, Nat.zero_add]
  refine propext ⟨?_, ?_⟩
  · rintro ⟨i, j, hi, hj, hb, hc, hr⟩
    exact ⟨i, hi, hr, j, hj, hb, hc⟩
  · rintro ⟨i, hi, hr, j, hj, hb, hc⟩
    exact ⟨i, j, hi, hj, hb, hc, hr⟩

theorem composite_plots (ox oy : Byte) {bs : List Byte} (hlen : bs.length ≤ 15) (d : Display) :
    Plots (SpriteSets ox oy bs) (d, false) (composite ox oy bs d) :=
  spriteSets_eq_from ox oy bs ▸ plotBytes_plots ox oy hlen 0 (d, false)

theorem composite_collision (ox oy : Byte) {bs : List Byte} (hlen : bs.length ≤ 15) (d : Display) :
    (composite ox oy bs d).2 = true ↔ ∃ c r, SpriteSets ox oy bs c r ∧ d.pixel c r = true := by
  simpa using (composite_plots ox oy hlen d).collision

end Sys2Proof.Machine
end

section
/-! SUPPORT. The two instructions that change the display (40_display.md R70, R71): the words that decode to them, and
what each does to the state. -/

namespace Sys2Proof

open Sys2Proof.Claims

theorem fieldX_eq_xOf (w : Word) : fieldX w = xOf w := Fin.ext (fieldX_val w)

theorem fieldY_eq_yOf (w : Word) : fieldY w = yOf w := Fin.ext (fieldY_val w)

/-- A row whose mask keeps the whole word has one word, the encoding of its instruction. -/
theorem rowDecodes_whole {i : Instr} (hwf : i.wf = true) : RowDecodes (encode i) 0xFFFF (fun _ => i) := by
  intro w hw
  exact (decode_eq_known_iff w i).mpr ⟨hwf, hw.symm.trans BitVec.and_allOnes⟩

theorem rowDecodes_drw : RowDecodes 0xD000 0xF000 (fun w => .drw (xOf w) (yOf w) (nOf w)) := by
  intro w hw
  have hd := (decode_eq_known_iff w _).mpr ⟨wf_drw_fieldN _ _ w, encode_drw_of_op (fieldOp_of_F000 hw)⟩
  rwa [fieldX_eq_xOf, fieldY_eq_yOf, fieldN_toNat] at hd

end Sys2Proof

namespace Sys2Proof.Machine

open Sys2Proof.Claims

theorem flagByte_eq_one_iff (b : Bool) : flagByte b = 1 ↔ b = true := by cases b <;> decide

theorem flagByte_eq_zero_iff (b : Bool) : flagByte b = 0 ↔ ¬ b = true := by cases b <;> decide

@[simp] theorem length_spriteAt (s : State) (n : Nat) : (spriteAt s n).length = n := by simp [spriteAt]

/-! ### Dxyn past its range check -/

theorem exec_drw_of_inRange {s : State} {n : Nat} (x y : Reg) (h : InRange s n) :
    exec (.drw x y n) s = .next (s.drawSprite x y n).advance :=
  withRange_of_ok _ _ _ _ _ h

theorem State.drawSprite_flag (s : State) (x y : Reg) (n : Nat) :
    (s.drawSprite x y n).reg 15 = flagByte (composite (s.reg x) (s.reg y) (spriteAt s n) s.disp).2 :=
  (State.reg_setReg _ _ _ _).trans (if_pos rfl)

/-- The sprite drawn is the bytes at I, and its origin the old V[x] and V[y]. -/
theorem State.drawSprite_inverts (s : State) (x y : Reg) {n : Nat} (hn : n ≤ 15) :
    Display.InvertedOn (SpriteSets (s.reg x) (s.reg y) (spriteAt s n)) s.disp (s.drawSprite x y n).disp :=
  (composite_plots _ _ ((length_spriteAt s n).trans_le hn) s.disp).inverted

/-- The draw meets a pixel that is 1. -/
def State.Collides (s : State) (x y : Reg) (n : Nat) : Prop :=
  ∃ c r, SpriteSets (s.reg x) (s.reg y) (spriteAt s n) c r ∧ s.pixel c r = true

theorem State.composite_collides (s : State) (x y : Reg) {n : Nat} (hn : n ≤ 15) :
    (composite (s.reg x) (s.reg y) (spriteAt s n) s.disp).2 = true ↔ s.Collides x y n :=
  composite_collision _ _ ((length_spriteAt s n).trans_le hn) s.disp

theorem State.drawSprite_flag_eq_one_iff (s : State) (x y : Reg) {n : Nat} (hn : n ≤ 15) :
    (s.drawSprite x y n).reg 15 = 1 ↔ s.Collides x y n := by
  rw [State.drawSprite_flag, flagByte_eq_one_iff, s.composite_collides x y hn]

theorem State.drawSprite_flag_eq_zero_iff (s : State) (x y : Reg) {n : Nat} (hn : n ≤ 15) :
    (s.drawSprite x y n).reg 15 = 0 ↔ ¬ s.Collides x y n := by
  rw [State.drawSprite_flag, flagByte_eq_zero_iff, s.composite_collides x y hn]

/-! ### Frames -/

theorem State.changesOnly_setDisplay_advance (s : State) (d : Display) :
    ChangesOnly [.disp, .redraw, .pc] s (s.setDisplay d).advance := by
  simp [ChangesOnly]

theorem State.changesOnly_drawSprite_advance (s : State) (x y : Reg) (n : Nat) :
    ChangesOnly [.regs, .disp, .redraw, .pc] s (s.drawSprite x y n).advance := by
  simp [ChangesOnly, State.drawSprite]

end Sys2Proof.Machine
end

section
/-! The obligations of the display (40_display.md), each settled by the lemmas above. -/

namespace Sys2Proof.Proofs

open Sys2Proof.Machine Sys2Proof.Claims

/-- Settles O13: 00E0 writes a blank display, which sets redraw with it. -/
theorem clearScreenBlanksTheDisplay : Obligations.ClearScreenBlanksTheDisplay := by
  unfold Obligations.ClearScreenBlanksTheDisplay
  exact ⟨rowDecodes_whole (i := .cls) rfl, fun s =>
    ⟨_, rfl, Display.pixel_blank, rfl, rfl, s.changesOnly_setDisplay_advance Display.blank⟩⟩

/-- Settles O14, by induction on the sprite bytes: up to 15 rows of 8 columns do not overlap. -/
theorem compositorXorsAllBitsAtOnce : Obligations.CompositorXorsAllBitsAtOnce := by
  unfold Obligations.CompositorXorsAllBitsAtOnce
  refine fun ox oy bs d hlen => ⟨fun i j i' j' hi hi' hj hj' hc hr => ⟨?_, spriteCol_inj ox hj hj' hc⟩,
    (composite_plots ox oy hlen d).inverted, composite_collision ox oy hlen d⟩
  exact spriteRow_inj oy (by omega) (by omega) hr

/-- Settles O15: past the range check the draw is the compositor at the old V[x] and V[y], and VF takes its
collision. -/
theorem drawXorsTheSpriteAtIntoTheDisplay : Obligations.DrawXorsTheSpriteAtIntoTheDisplay := by
  unfold Obligations.DrawXorsTheSpriteAtIntoTheDisplay
  refine ⟨rowDecodes_drw, fun s x y n hn => ⟨fun hin => ?_, fun hout => ?_⟩⟩
  · exact ⟨_, exec_drw_of_inRange x y hin, s.drawSprite_inverts x y hn, (s.drawSprite_flag_eq_one_iff x y hn).mpr,
      (s.drawSprite_flag_eq_zero_iff x y hn).mpr, fun _ => s.drawSprite_reg_of_ne x y n, rfl, rfl,
      s.changesOnly_drawSprite_advance x y n⟩
  · obtain ⟨hpos, hend⟩ : 0 < n ∧ 0x1000 < s.base + n := by
      rw [InRange] at hout
      rw [State.base]
      omega
    exact ⟨_, withRange_of_out _ _ _ _ _ hpos hend, rfl, s.changesOnly_raise _ _ _⟩

/-- Settles O16: the second draw inverts the pixels of the first again, and finds a 1 exactly where the first found
a 0. -/
theorem drawingTwiceRestoresTheDisplay : Obligations.DrawingTwiceRestoresTheDisplay := by
  unfold Obligations.DrawingTwiceRestoresTheDisplay
  intro s x y n hn hin
  have hfirst := s.drawSprite_inverts x y hn
  refine ⟨_, exec_drw_of_inRange x y hin, hin, rfl, s.drawSprite_reg_of_ne x y n, s.drawSprite_reg_of_ne x y n, ?_⟩
  intro q x' y' hdisp hq hsprite hx hy
  have hd : q.disp = (s.drawSprite x y n).disp := Display.ext hdisp
  have hsecond := q.drawSprite_inverts x' y' hn
  rw [hsprite, hx, hy, hd] at hsecond
  refine ⟨_, exec_drw_of_inRange x' y' hq, hfirst.pixel_twice hsecond, ?_⟩
  refine (q.drawSprite_flag_eq_one_iff x' y' hn).trans ?_
  rw [State.Collides, hsprite, hx, hy]
  refine exists₂_congr fun c r => and_congr_right fun hset => ?_
  have hinv : (s.drawSprite x y n).advance.pixel c r = !s.pixel c r := (hfirst c r).1 hset
  rw [hdisp, hinv, Bool.not_eq_true']

end Sys2Proof.Proofs
end

section
/-! SUPPORT. Control transfer (41_control_transfer.md): the words that decode to a jump, a call or a skip, what each
does to the state, and runs of calls and of returns. -/

namespace Sys2Proof

open Sys2Proof.Claims

/-! ### The words on a row, one lemma per layout (R57, R59) -/

theorem fieldKK_eq_kkOf (w : Word) : fieldKK w = kkOf w := (fieldKK_eq_iff w _).mpr (by simp [kkOf])

theorem fieldNNN_eq_nnnOf (w : Word) : fieldNNN w = nnnOf w :=
  BitVec.eq_of_toNat_eq (by simp [fieldNNN_toNat, nnnOf])

section Layouts

variable {p : Word}

theorem rowDecodes_NNN (mk : Addr12 → Instr) (h : ∀ nnn, (mk nnn).wf = true ∧
    encode (mk nnn) = wordNNN (BitVec.ofNat 4 (p.toNat / 0x1000)) nnn) :
    RowDecodes p 0xF000 (fun w => mk (nnnOf w)) := by
  intro w hw
  obtain ⟨hwf, he⟩ := h (nnnOf w)
  refine (decode_eq_known_iff w _).mpr ⟨hwf, he.trans ?_⟩
  rw [← fieldNNN_eq_nnnOf, wordNNN_of_op (fieldOp_of_F000 hw)]

theorem rowDecodes_XKK (mk : Reg → Byte → Instr) (h : ∀ x kk, (mk x kk).wf = true ∧
    encode (mk x kk) = wordXKK (BitVec.ofNat 4 (p.toNat / 0x1000)) x kk) :
    RowDecodes p 0xF000 (fun w => mk (xOf w) (kkOf w)) := by
  intro w hw
  obtain ⟨hwf, he⟩ := h (xOf w) (kkOf w)
  refine (decode_eq_known_iff w _).mpr ⟨hwf, he.trans ?_⟩
  rw [← fieldX_eq_xOf, ← fieldKK_eq_kkOf, wordXKK_of_op (fieldOp_of_F000 hw)]

theorem rowDecodes_XYN (mk : Reg → Reg → Instr) (h : ∀ x y, (mk x y).wf = true ∧
    encode (mk x y) = wordXYN (BitVec.ofNat 4 (p.toNat / 0x1000)) x y (BitVec.ofNat 4 (p.toNat % 0x10))) :
    RowDecodes p 0xF00F (fun w => mk (xOf w) (yOf w)) := by
  intro w hw
  obtain ⟨hwf, he⟩ := h (xOf w) (yOf w)
  refine (decode_eq_known_iff w _).mpr ⟨hwf, he.trans ?_⟩
  rw [← fieldX_eq_xOf, ← fieldY_eq_yOf, wordXYN_of_op_n (fields_of_F00F hw)]

end Layouts

end Sys2Proof

namespace Sys2Proof.Machine

open Sys2Proof.Claims

/-! ### Jumps and skips: pc alone changes (R78, R80 to R84) -/

theorem setsPc_of_jumpTo {i : Instr} {s : State} {w : Word} {n : Nat} (he : exec i s = .next (s.jumpTo w))
    (hw : w.toNat = n) : SetsPc i s n :=
  ⟨_, he, hw, by simp [ChangesOnly]⟩

/-- The sum of Bnnn stays below 2^16. -/
theorem toNat_jpV0_eq_add (nnn : Addr12) (b : Byte) :
    (zext16 nnn + byteToWord b).toNat = nnn.toNat + b.toNat := by
  have := nnn.isLt
  have := b.isLt
  rw [toNat_jpV0]
  omega

theorem skips_of_skipIf {i : Instr} {s : State} {b : Bool} {p : Prop} [Decidable p]
    (he : exec i s = .next (s.skipIf b)) (h : b = true ↔ p) : Skips i s (decide p) :=
  ⟨_, he, s.toNat_skipIf_pc (h.trans decide_eq_true_iff.symm), by simp [ChangesOnly]⟩

theorem beq_eq_true_iff_toNat (a b : Byte) : (a == b) = true ↔ a.toNat = b.toNat :=
  beq_iff_eq.trans BitVec.toNat_inj.symm

theorem bne_eq_true_iff_toNat (a b : Byte) : (a != b) = true ↔ a.toNat ≠ b.toNat :=
  bne_iff_ne.trans (not_congr BitVec.toNat_inj.symm)

/-! ### A call and a return (R77, R79) -/

/-- The state after a call with k entries on the stack. -/
def State.called (s : State) (k : Fin 16) (nnn : Addr12) : State :=
  (s.setStack (s.stack.set k.val (s.pc + 2)) k.succ).jumpTo (zext16 nnn)

/-- The state after a return to the entry k. -/
def State.returned (s : State) (k : Fin 16) : State :=
  (s.setStack s.stack k.castSucc).jumpTo (s.stackAt k)

theorem exec_call_of_room {s : State} {k : Fin 16} (nnn : Addr12) (h : s.sp.val = k.val) :
    exec (.call nnn) s = .next (s.called k nnn) := by
  obtain ⟨n, hn⟩ := k
  subst h
  rcases execCall_cases nnn s with ⟨hfull, -⟩ | ⟨_, hs⟩
  · exact absurd hfull hn.ne
  · exact hs

theorem exec_ret_of_top {s : State} {k : Fin 16} (h : s.sp.val = k.val + 1) :
    exec .ret s = .next (s.returned k) := by
  have hk : k = ⟨s.sp.val - 1, by omega⟩ := Fin.ext (Nat.eq_sub_of_add_eq h.symm)
  rcases execRet_cases s with ⟨hempty, -⟩ | ⟨_, hs⟩
  · omega
  · rw [hk]
    exact hs

theorem raises_call_of_full {s : State} (nnn : Addr12) (h : s.sp.val = 16) :
    Raises (.call nnn) s .stackOverflow none := by
  rcases execCall_cases nnn s with ⟨-, hs⟩ | ⟨hlt, -⟩
  · exact ⟨_, hs, rfl, s.changesOnly_raise _ _ _⟩
  · omega

theorem raises_ret_of_empty {s : State} (h : s.sp.val = 0) : Raises .ret s .stackUnderflow none := by
  rcases execRet_cases s with ⟨-, hs⟩ | ⟨hpos, -⟩
  · exact ⟨_, hs, rfl, s.changesOnly_raise _ _ _⟩
  · omega

theorem State.called_stackAt_same (s : State) (k : Fin 16) (nnn : Addr12) :
    (s.called k nnn).stackAt k = s.pc + 2 :=
  Vector.getElem_set_self k.isLt

theorem State.called_stackAt_of_ne (s : State) {k j : Fin 16} (nnn : Addr12) (h : j ≠ k) :
    (s.called k nnn).stackAt j = s.stackAt j :=
  Vector.getElem_set_ne k.isLt j.isLt (Fin.val_ne_of_ne h.symm)

theorem State.changesOnly_called (s : State) (k : Fin 16) (nnn : Addr12) :
    ChangesOnly [.pc, .stack] s (s.called k nnn) := by
  simp [ChangesOnly, State.called]

theorem State.changesOnly_returned (s : State) (k : Fin 16) : ChangesOnly [.pc, .stack] s (s.returned k) := by
  simp [ChangesOnly, State.returned]

/-! ### Runs of calls and of returns (R86) -/

theorem runInstrs_cons_of_next {i : Instr} {is : List Instr} {s t : State} (h : exec i s = .next t) :
    runInstrs (i :: is) s = runInstrs is t := by
  rw [runInstrs, h]

/-- Calls keep every entry below their own: the first one's return address stays in the entry it pushed. -/
theorem runInstrs_calls (targets : List Addr12) {s : State} (h : s.sp.val + targets.length ≤ 16) :
    ∃ t, runInstrs (targets.map .call) s = .next t ∧ t.halt = s.halt ∧ t.sp.val = s.sp.val + targets.length ∧
      (∀ k : Fin 16, k.val < s.sp.val → t.stackAt k = s.stackAt k) ∧
      (targets ≠ [] → ∀ k : Fin 16, k.val = s.sp.val → t.stackAt k = s.pc + 2) := by
  induction targets generalizing s with
  | nil => exact ⟨s, rfl, rfl, rfl, fun _ _ => rfl, fun hne => absurd rfl hne⟩
  | cons nnn targets ih =>
    rw [List.length_cons] at h ⊢
    obtain ⟨k, hk⟩ : ∃ k : Fin 16, k.val = s.sp.val := ⟨⟨s.sp.val, by omega⟩, rfl⟩
    have hsp : (s.called k nnn).sp.val = k.val + 1 := rfl
    obtain ⟨t, hrun, hhalt, htop, hkept, -⟩ := ih (s := s.called k nnn) (by omega)
    refine ⟨t, (runInstrs_cons_of_next (exec_call_of_room nnn hk.symm)).trans hrun, hhalt, by omega, fun j hj => ?_,
      fun _ j hj => ?_⟩
    · rw [hkept j (by omega), s.called_stackAt_of_ne nnn (Fin.ne_of_lt (by omega))]
    · obtain rfl : j = k := Fin.ext (hj.trans hk.symm)
      rw [hkept j (by omega), s.called_stackAt_same]

/-- d + 1 returns go to the entry d below the top one: each of them keeps every entry. -/
theorem runInstrs_rets (d : Nat) {s : State} {k : Fin 16} (h : s.sp.val = k.val + d + 1) :
    ∃ t, runInstrs (List.replicate (d + 1) .ret) s = .next t ∧ t.halt = s.halt ∧ t.sp.val = k.val ∧
      t.pc = s.stackAt k := by
  induction d generalizing s with
  | zero => exact ⟨s.returned k, runInstrs_cons_of_next (exec_ret_of_top h), rfl, rfl, rfl⟩
  | succ d ih =>
    obtain ⟨top, htop⟩ : ∃ top : Fin 16, top.val = k.val + d + 1 := ⟨⟨k.val + d + 1, by omega⟩, rfl⟩
    obtain ⟨t, hrun, hhalt, hsp, hpc⟩ := ih (s := s.returned top) htop
    exact ⟨t, (runInstrs_cons_of_next (exec_ret_of_top (k := top) (by omega))).trans hrun, hhalt, hsp, hpc⟩

end Sys2Proof.Machine
end

section
/-! The obligations of control transfer (41_control_transfer.md), each settled by the lemmas above. -/

namespace Sys2Proof.Proofs

open Sys2Proof.Machine Sys2Proof.Claims

/-- Settles O21, by induction on the calls and on the returns: the later calls and the returns leave the first call's
entry as it is, and the last return goes to it. -/
theorem nestedCallsReturnBehindTheFirst : Obligations.NestedCallsReturnBehindTheFirst := by
  unfold Obligations.NestedCallsReturnBehindTheFirst
  refine ⟨fun s nnn hfull => raises_call_of_full nnn hfull, fun s targets hrun hroom => ?_⟩
  obtain ⟨t, hcalls, hhalt, hsp, -, hfirst⟩ := runInstrs_calls targets hroom
  refine ⟨t, hcalls, hhalt.trans hrun, hsp, fun hne => ?_⟩
  obtain ⟨d, hd⟩ := Nat.exists_eq_add_one.mpr (List.length_pos_iff.mpr hne)
  rw [hd] at hroom hsp ⊢
  obtain ⟨first, hk⟩ : ∃ k : Fin 16, k.val = s.sp.val := ⟨⟨s.sp.val, by omega⟩, rfl⟩
  obtain ⟨u, hrets, huhalt, husp, hupc⟩ := runInstrs_rets d (s := t) (k := first) (by omega)
  exact ⟨u, hrets, huhalt.trans (hhalt.trans hrun), Fin.ext (husp.trans hk), hupc.trans (hfirst hne first hk)⟩

/-- Settles O17: 00EE reads the top entry and moves SP alone. -/
theorem returnPopsTheStack : Obligations.ReturnPopsTheStack := by
  unfold Obligations.ReturnPopsTheStack
  exact ⟨rowDecodes_whole (i := .ret) rfl, fun s => ⟨raises_ret_of_empty, fun k htop =>
    ⟨_, exec_ret_of_top htop, rfl, rfl, fun _ => rfl, s.changesOnly_returned k⟩⟩⟩

/-- Settles O18: the target of 1nnn has 12 bits, and the sum of Bnnn fits in 16. -/
theorem jumpsSetThePc : Obligations.JumpsSetThePc := by
  unfold Obligations.JumpsSetThePc
  exact ⟨rowDecodes_NNN .jp fun _ => ⟨rfl, rfl⟩, rowDecodes_NNN .jpV0 fun _ => ⟨rfl, rfl⟩, fun s nnn =>
    ⟨setsPc_of_jumpTo rfl (toNat_zext16 nnn), setsPc_of_jumpTo rfl (toNat_jpV0_eq_add nnn (s.reg 0))⟩⟩

/-- Settles O19: 2nnn writes the one entry at SP. -/
theorem callPushesTheNextAddress : Obligations.CallPushesTheNextAddress := by
  unfold Obligations.CallPushesTheNextAddress
  exact ⟨rowDecodes_NNN .call fun _ => ⟨rfl, rfl⟩, fun s nnn => ⟨raises_call_of_full nnn, fun k hroom =>
    ⟨_, exec_call_of_room nnn hroom, toNat_zext16 nnn, s.called_stackAt_same k nnn, rfl,
      fun _ => s.called_stackAt_of_ne nnn, s.changesOnly_called k nnn⟩⟩⟩

/-- Settles O20: equal bytes are equal numbers. -/
theorem conditionalSkipsCompare : Obligations.ConditionalSkipsCompare := by
  unfold Obligations.ConditionalSkipsCompare
  refine ⟨rowDecodes_XKK .seK fun _ _ => ⟨rfl, rfl⟩, rowDecodes_XKK .sneK fun _ _ => ⟨rfl, rfl⟩,
    rowDecodes_XYN .seR fun _ _ => ⟨rfl, rfl⟩, rowDecodes_XYN .sneR fun _ _ => ⟨rfl, rfl⟩, fun s x y kk => ?_⟩
  exact ⟨skips_of_skipIf rfl (beq_eq_true_iff_toNat ..), skips_of_skipIf rfl (bne_eq_true_iff_toNat ..),
    skips_of_skipIf rfl (beq_eq_true_iff_toNat ..), skips_of_skipIf rfl (bne_eq_true_iff_toNat ..)⟩

end Sys2Proof.Proofs
end

section
/-! SUPPORT. Register loads and the ALU (42_alu.md): what an instruction that writes one register does to the state,
what `WriteFR` leaves in each register under each order, and the flag and the result of 8xy4 to 8xyE. -/

namespace Sys2Proof.Machine

open Sys2Proof.Claims

/-! ### One register written (R89 to R94) -/

theorem writesRegister_of_setReg {i : Instr} {s : State} {x : Reg} {b : Byte} {n : Nat}
    (he : exec i s = .next (s.setReg x b).advance) (hb : b.toNat = n) : WritesRegister i s x n :=
  ⟨_, he, by simpa using hb, fun k hk => by simp [hk], rfl, by simp [ChangesOnly]⟩

/-! ### A flag and a result written (R88) -/

/-- For a destination other than VF both orders end alike. -/
theorem State.writeFR_reg_of_dest_ne_flag (s : State) {x : Reg} (f : Bool) (r : Byte) (k : Reg) (hx : x ≠ 15) :
    (s.writeFR x f r).reg k = if k = x then r else if k = 15 then flagByte f else s.reg k := by
  rw [State.reg_writeFR]
  split
  · rfl
  · by_cases hk : k = x
    · rw [if_neg (hk ▸ hx), if_pos hk, if_pos hk]
    · rw [if_neg hk, if_neg hk]

/-- Under flag_then_result the result is written last. -/
theorem State.writeFR_reg_dest {s : State} (h : s.cfg.flagWriteOrder = .flagThenResult) (x : Reg) (f : Bool)
    (r : Byte) : (s.writeFR x f r).reg x = r := by
  simp [h]

/-- Under result_then_flag the flag is written last. -/
theorem State.writeFR_reg_flag {s : State} (h : s.cfg.flagWriteOrder = .resultThenFlag) (x : Reg) (f : Bool)
    (r : Byte) : (s.writeFR x f r).reg 15 = flagByte f := by
  simp [h]

/-- The state under another write order. -/
def State.withOrder (s : State) (o : FlagWriteOrder) : State :=
  { s with cfg := { s.cfg with flagWriteOrder := o } }

/-- The reset contents do not depend on the write order. -/
@[simp] theorem State.withOrder_byteAt (s : State) (o : FlagWriteOrder) (a : Nat) :
    (s.withOrder o).byteAt a = s.byteAt a := by
  show Memory.read (s.withOrder o).cfg s.mem a = Memory.read s.cfg s.mem a
  induction s.mem with
  | nil => rfl
  | cons p m ih => simp only [Memory.read, ih]

/-- The order shows in the registers alone. -/
theorem State.changesOnly_writeFR_of_orders (s : State) (o p : FlagWriteOrder) (x : Reg) (f : Bool) (r : Byte) :
    ChangesOnly [.regs, .cfg] ((s.withOrder o).writeFR x f r).advance ((s.withOrder p).writeFR x f r).advance := by
  simp only [ChangesOnly, State.advance_byteAt, State.writeFR_byteAt, State.withOrder_byteAt]
  simp [State.withOrder, State.pixel, State.key, State.stackAt]

/-- Under every write order `i` is one `WriteFR` for x, of the flag f and the result r. -/
def ComputesFlagAndResult (i : Instr) (s : State) (x : Reg) (f r : Nat) : Prop :=
  ∃ (flag : Bool) (result : Byte), (flagByte flag).toNat = f ∧ result.toNat = r ∧
    ∀ o, exec i (s.withOrder o) = .next ((s.withOrder o).writeFR x flag result).advance

theorem ComputesFlagAndResult.writes {i : Instr} {s : State} {x : Reg} {f r : Nat}
    (h : ComputesFlagAndResult i s x f r) : WritesFlagAndRegister i s x f r := by
  obtain ⟨flag, result, rfl, rfl, he⟩ := h
  refine ⟨(s.writeFR x flag result).advance, he s.cfg.flagWriteOrder, fun hx => ⟨?_, ?_⟩, fun hx ho => ?_,
    fun _ ho => ?_, fun k hkx hkf => s.writeFR_reg_of_ne flag result hkx hkf, by simp, by simp [ChangesOnly]⟩ <;>
    rw [State.advance_reg]
  · rw [State.writeFR_reg_of_dest_ne_flag _ _ _ _ hx, if_pos rfl]
  · rw [State.writeFR_reg_of_dest_ne_flag _ _ _ _ hx, if_neg hx.symm, if_pos rfl]
  · rw [← hx, State.writeFR_reg_dest ho]
  · rw [State.writeFR_reg_flag ho]

/-! ### The flags and the results of R95 to R99 -/

theorem toNat_flagByte_decide (p : Prop) [Decidable p] : (flagByte (decide p)).toNat = if p then 1 else 0 := by
  by_cases h : p <;> simp [flagByte, h]

theorem toNat_flagByte_getLsbD (a : Byte) (k : Nat) : (flagByte (a.getLsbD k)).toNat = a.toNat / 2 ^ k % 2 := by
  rw [BitVec.getLsbD, Nat.testBit_eq_decide_div_mod_eq, toNat_flagByte_decide]
  split <;> omega

theorem toNat_flagByte_lowBit (a : Byte) : (flagByte (lowBit a)).toNat = a.toNat % 2 :=
  (toNat_flagByte_getLsbD a 0).trans (by rw [Nat.pow_zero, Nat.div_one])

/-- Bit 7 is the top bit of a byte. -/
theorem toNat_flagByte_highBit (a : Byte) : (flagByte (highBit a)).toNat = a.toNat / 128 := by
  have := a.isLt
  rw [highBit, toNat_flagByte_getLsbD]
  omega

theorem toNat_sub_eq_mod (a b : Byte) : (a - b).toNat = (a.toNat + 256 - b.toNat) % 256 := by
  have := a.isLt
  have := b.isLt
  rw [BitVec.toNat_sub]
  omega

theorem toNat_shr_one (a : Byte) : (a >>> 1).toNat = a.toNat / 2 := by
  rw [BitVec.toNat_ushiftRight, Nat.shiftRight_eq_div_pow, Nat.pow_one]

theorem toNat_shl_one (a : Byte) : (a <<< 1).toNat = a.toNat * 2 % 256 := by
  rw [BitVec.toNat_shiftLeft, Nat.shiftLeft_eq]

/-- The difference of two bytes mod 256, as naturals and as integers. -/
theorem natCast_add_sub_mod (a b : Byte) :
    (((a.toNat + 256 - b.toNat) % 256 : Nat) : Int) = ((a.toNat : Int) - (b.toNat : Int)) % 256 := by
  have := b.isLt
  omega

section Computes

variable (s : State) (x y : Reg)

theorem computes_addR : ComputesFlagAndResult (.addR x y) s x
    (if (s.reg x).toNat + (s.reg y).toNat > 255 then 1 else 0) (((s.reg x).toNat + (s.reg y).toNat) % 256) :=
  ⟨_, _, toNat_flagByte_decide _, BitVec.toNat_add _ _, fun _ => rfl⟩

theorem computes_sub : ComputesFlagAndResult (.sub x y) s x
    (if (s.reg x).toNat > (s.reg y).toNat then 1 else 0) (((s.reg x).toNat + 256 - (s.reg y).toNat) % 256) :=
  ⟨_, _, toNat_flagByte_decide _, toNat_sub_eq_mod _ _, fun _ => rfl⟩

theorem computes_subn : ComputesFlagAndResult (.subn x y) s x
    (if (s.reg y).toNat > (s.reg x).toNat then 1 else 0) (((s.reg y).toNat + 256 - (s.reg x).toNat) % 256) :=
  ⟨_, _, toNat_flagByte_decide _, toNat_sub_eq_mod _ _, fun _ => rfl⟩

theorem computes_shr : ComputesFlagAndResult (.shr x y) s x ((s.reg x).toNat % 2) ((s.reg x).toNat / 2) :=
  ⟨_, _, toNat_flagByte_lowBit _, toNat_shr_one _, fun _ => rfl⟩

theorem computes_shl : ComputesFlagAndResult (.shl x y) s x ((s.reg x).toNat / 128) ((s.reg x).toNat * 2 % 256) :=
  ⟨_, _, toNat_flagByte_highBit _, toNat_shl_one _, fun _ => rfl⟩

end Computes

/-- The rows of R88's table are the five instructions above. -/
theorem computes_of_mem_flagAndResult {s : State} {x y : Reg} {i : Instr} {f r : Nat}
    (h : (i, f, r) ∈ flagAndResult s x y) : ComputesFlagAndResult i s x f r := by
  simp only [flagAndResult, List.mem_cons, List.not_mem_nil, or_false, Prod.mk.injEq] at h
  obtain ⟨rfl, rfl, rfl⟩ | ⟨rfl, rfl, rfl⟩ | ⟨rfl, rfl, rfl⟩ | ⟨rfl, rfl, rfl⟩ | ⟨rfl, rfl, rfl⟩ := h
  · exact computes_addR s x y
  · exact computes_sub s x y
  · exact computes_shr s x y
  · exact computes_subn s x y
  · exact computes_shl s x y

/-! ### The step on an illegal word (R100) -/

theorem step_of_fetch_unknown {s : State} {w : Word} (hrun : s.halt = none) (hf : s.fetch = .ok w)
    (hd : decode w = .unknown) : step s = .next (s.raise .unknownOpcode (some w) none) := by
  simp only [step, hrun, hf, hd]

end Sys2Proof.Machine
end

section
/-! The obligations of the ALU (42_alu.md), each settled by the lemmas above. -/

namespace Sys2Proof.Proofs

open Sys2Proof.Machine Sys2Proof.Claims

/-- Settles O24: both operands are read before `WriteFR` writes. -/
theorem addSetsTheCarry : Obligations.AddSetsTheCarry := by
  unfold Obligations.AddSetsTheCarry
  exact ⟨rowDecodes_XYN .addR fun _ _ => ⟨rfl, rfl⟩, fun s x y => (computes_addR s x y).writes⟩

/-- Settles O25: the byte difference is the integer difference mod 256. -/
theorem subtractionsSetTheStrictComparison : Obligations.SubtractionsSetTheStrictComparison := by
  unfold Obligations.SubtractionsSetTheStrictComparison
  refine ⟨rowDecodes_XYN .sub fun _ _ => ⟨rfl, rfl⟩, rowDecodes_XYN .subn fun _ _ => ⟨rfl, rfl⟩, fun s x y => ⟨?_, ?_⟩⟩
  · rw [← natCast_add_sub_mod]
    exact (computes_sub s x y).writes
  · rw [← natCast_add_sub_mod]
    exact (computes_subn s x y).writes

/-- Settles O26: the flag is the bit that the shift of V[x] drops. -/
theorem shiftsCaptureTheLostBit : Obligations.ShiftsCaptureTheLostBit := by
  unfold Obligations.ShiftsCaptureTheLostBit
  exact ⟨rowDecodes_XYN .shr fun _ _ => ⟨rfl, rfl⟩, rowDecodes_XYN .shl fun _ _ => ⟨rfl, rfl⟩, fun s x y =>
    ⟨(computes_shr s x y).writes, (computes_shl s x y).writes⟩⟩

/-- Settles O27: the flag and the result do not depend on the order, and for x other than 15 they go to two
registers. -/
theorem writeOrderMattersOnlyForVF : Obligations.WriteOrderMattersOnlyForVF := by
  unfold Obligations.WriteOrderMattersOnlyForVF
  intro s x y i f r hrow
  obtain ⟨flag, result, rfl, rfl, he⟩ := computes_of_mem_flagAndResult hrow
  refine ⟨_, _, he .flagThenResult, he .resultThenFlag, fun hx => ⟨State.v_ext fun k => ?_, ?_, ?_⟩,
    fun hx => ⟨?_, ?_⟩, fun k hkx hkf => ⟨State.writeFR_reg_of_ne _ _ _ hkx hkf, State.writeFR_reg_of_ne _ _ _ hkx hkf⟩,
    s.changesOnly_writeFR_of_orders _ _ x flag result⟩
  · simp only [State.advance_reg, State.writeFR_reg_of_dest_ne_flag _ _ _ _ hx]
    rfl
  · rw [State.advance_reg, State.writeFR_reg_dest rfl]
  · rw [State.advance_reg, State.writeFR_reg_of_dest_ne_flag _ _ _ _ hx, if_neg hx.symm, if_pos rfl]
  · rw [← hx, State.advance_reg, State.writeFR_reg_dest rfl]
  · rw [State.advance_reg, State.writeFR_reg_flag rfl]

/-- Settles O8: the decoder answers Unknown on the word fetched. -/
theorem illegalWordHaltsTheMachine : Obligations.IllegalWordHaltsTheMachine := by
  unfold Obligations.IllegalWordHaltsTheMachine
  rintro s ⟨hrun, heven, hlow⟩ hill
  exact ⟨_, step_of_fetch_unknown hrun (State.fetch_eq_wordAt heven hlow) (decode_of_illegal hill), rfl,
    s.changesOnly_raise _ _ _⟩

/-- Settles O22: each writes V[x] alone. -/
theorem immediateLoadAndAdd : Obligations.ImmediateLoadAndAdd := by
  unfold Obligations.ImmediateLoadAndAdd
  exact ⟨rowDecodes_XKK .ldK fun _ _ => ⟨rfl, rfl⟩, rowDecodes_XKK .addK fun _ _ => ⟨rfl, rfl⟩, fun s x kk =>
    ⟨writesRegister_of_setReg rfl rfl, writesRegister_of_setReg rfl (BitVec.toNat_add (s.reg x) kk)⟩⟩

/-- Settles O23: each writes V[x] alone. -/
theorem moveAndLogic : Obligations.MoveAndLogic := by
  unfold Obligations.MoveAndLogic
  refine ⟨rowDecodes_XYN .ldR fun _ _ => ⟨rfl, rfl⟩, rowDecodes_XYN .or fun _ _ => ⟨rfl, rfl⟩,
    rowDecodes_XYN .and fun _ _ => ⟨rfl, rfl⟩, rowDecodes_XYN .xor fun _ _ => ⟨rfl, rfl⟩, fun s x y => ?_⟩
  exact ⟨writesRegister_of_setReg rfl rfl, writesRegister_of_setReg rfl (BitVec.toNat_or (s.reg x) (s.reg y)),
    writesRegister_of_setReg rfl (BitVec.toNat_and (s.reg x) (s.reg y)),
    writesRegister_of_setReg rfl (BitVec.toNat_xor (s.reg x) (s.reg y))⟩

/-- Settles O28: the byte is the one drawn at this count. -/
theorem randomByteIsMasked : Obligations.RandomByteIsMasked := by
  unfold Obligations.RandomByteIsMasked
  refine ⟨rowDecodes_XKK .rnd fun _ _ => ⟨rfl, rfl⟩, fun s x kk => ?_⟩
  have hx : (s.countDraw.setReg x (Config.rndByte s.draws &&& kk)).advance.reg x = Config.rndByte s.draws &&& kk := by
    simp
  refine ⟨Config.rndByte s.draws, _, rfl, hx, fun b hb => ?_, fun k hk => ?_, rfl, ?_⟩
  · rw [hx, BitVec.getLsbD_and, hb, Bool.and_false]
  · simp [hk]
  · simp [ChangesOnly]

end Sys2Proof.Proofs
end

section
/-! SUPPORT. The index register and memory transfer (43_index_and_memory.md): the words of layout XSUB, what each
instruction leaves in I, in memory and in the registers, and the range fault that the transfers share. -/

namespace Sys2Proof

open Sys2Proof.Claims

/-- Layout XSUB of R59: `op` and `kk` select the row. -/
theorem rowDecodes_XSUB {p : Word} (mk : Reg → Instr) (h : ∀ x, (mk x).wf = true ∧
    encode (mk x) = wordXKK (BitVec.ofNat 4 (p.toNat / 0x1000)) x (BitVec.ofNat 8 (p.toNat % 0x100))) :
    RowDecodes p 0xF0FF (fun w => mk (xOf w)) := by
  intro w hw
  obtain ⟨hwf, he⟩ := h (xOf w)
  refine (decode_eq_known_iff w _).mpr ⟨hwf, he.trans ?_⟩
  rw [← fieldX_eq_xOf, wordXKK_of_op_kk (fields_of_F0FF hw)]

end Sys2Proof

namespace Sys2Proof.Machine

open Sys2Proof.Claims

/-! ### I written (R103 to R105) -/

theorem writesIndex_of_setIdx {i : Instr} {s : State} {w : Word} {n : Nat}
    (he : exec i s = .next (s.setIdx w).advance) (hw : w.toNat = n) : WritesIndex i s n :=
  ⟨_, he, hw, rfl, by simp [ChangesOnly]⟩

theorem toNat_add_byteToWord (w : Word) (b : Byte) :
    (w + byteToWord b).toNat = (w.toNat + b.toNat) % 0x10000 := by
  rw [BitVec.toNat_add, byteToWord, BitVec.toNat_setWidth, Nat.add_mod_mod]

/-- FONT_BASE is at most 0x1B0, so the glyph address of any byte fits in I. -/
theorem toNat_glyphAddr (c : Config) (d : Byte) : (glyphAddr c d).toNat = c.fontBase.val + 5 * d.toNat := by
  have := c.fontBase.isLt
  have := d.isLt
  rw [glyphAddr, BitVec.toNat_ofNat, Nat.mod_eq_of_lt (by omega)]

/-! ### The range fault of a transfer at I (R43, R106 to R108) -/

theorem raises_of_withRange_out {i : Instr} {s go : State} {n : Nat} (he : exec i s = withRange i s.base n s go)
    (hn : 0 < n) (hout : 0x1000 < s.idx.toNat + n) :
    Raises i s .addressOutOfRange (some (max s.idx.toNat 0x1000)) :=
  ⟨_, he.trans (withRange_of_out _ _ _ _ _ hn hout), rfl, s.changesOnly_raise _ _ _⟩

/-! ### Bytes stored (R106, R107) -/

theorem State.changesOnly_storeBytes_advance (s : State) (base : Nat) (bs : List Byte) :
    ChangesOnly [.mem, .pc] s (s.storeBytes base bs).advance := by
  simp [ChangesOnly]

/-- No digit of a byte is cut off: the hundreds are at most 2, and the others below 10. -/
theorem map_toNat_decimalDigits (b : Byte) :
    (decimalDigits b).map BitVec.toNat = [b.toNat / 100, b.toNat / 10 % 10, b.toNat % 10] := by
  have hb := b.isLt
  have hundreds : b.toNat / 100 < 2 ^ 8 := by omega
  have tens : b.toNat / 10 % 10 < 2 ^ 8 := by omega
  have ones : b.toNat % 10 < 2 ^ 8 := by omega
  simp only [decimalDigits, List.map_cons, List.map_nil, BitVec.toNat_ofNat, Nat.mod_eq_of_lt hundreds,
    Nat.mod_eq_of_lt tens, Nat.mod_eq_of_lt ones]

theorem State.toNat_byteAt_storeBytes_decimalDigits (s : State) (base : Nat) (b : Byte) (k : Fin 3) :
    ((s.storeBytes base (decimalDigits b)).byteAt (base + k.val)).toNat =
      [b.toNat / 100, b.toNat / 10 % 10, b.toNat % 10][k.val] := by
  rw [s.byteAt_storeBytes_of_in base (decimalDigits b) k.val k.isLt]
  exact (List.getElem_map BitVec.toNat).symm.trans (List.getElem_of_eq (map_toNat_decimalDigits b) k.isLt)

/-- The state after Fx55 past its range check. -/
def State.stored (s : State) (x : Reg) : State := (s.storeBytes s.base (s.regsUpTo x)).advance

theorem exec_stRegs_of_inside {s : State} {x : Reg} (h : s.idx.toNat + x.val < 0x1000) :
    exec (.stRegs x) s = .next (s.stored x) :=
  execStRegs_of_ok h

@[simp] theorem State.stored_idx (s : State) (x : Reg) : (s.stored x).idx = s.idx := by simp [State.stored]

@[simp] theorem State.stored_reg (s : State) (x k : Reg) : (s.stored x).reg k = s.reg k := by simp [State.stored]

theorem State.stored_byteAt (s : State) {x k : Reg} (hk : k ≤ x) :
    (s.stored x).byteAt (s.idx.toNat + k.val) = s.reg k := by
  rw [State.stored, State.advance_byteAt]
  exact s.byteAt_storeBytes_regsUpTo s.base hk

theorem State.stored_byteAt_of_out (s : State) (x : Reg) {a : Nat} (h : a < s.idx.toNat ∨ s.idx.toNat + x.val < a) :
    (s.stored x).byteAt a = s.byteAt a := by
  rw [State.stored, State.advance_byteAt]
  refine s.byteAt_storeBytes_of_out s.base (s.regsUpTo x) a ?_
  rwa [State.length_regsUpTo]

/-! ### Registers loaded (R108) -/

/-- The state after Fx65 past its range check. -/
def State.loaded (s : State) (x : Reg) : State := (s.loadRegs x).advance

theorem exec_ldRegs_of_inside {s : State} {x : Reg} (h : s.idx.toNat + x.val < 0x1000) :
    exec (.ldRegs x) s = .next (s.loaded x) :=
  withRange_of_ok _ _ _ _ _ (.inr h)

@[simp] theorem State.loaded_byteAt (s : State) (x : Reg) (a : Nat) : (s.loaded x).byteAt a = s.byteAt a := by
  rw [State.loaded, State.advance_byteAt, State.loadRegs_byteAt]

theorem State.loaded_reg_of_le (s : State) {x k : Reg} (hk : k ≤ x) :
    (s.loaded x).reg k = s.byteAt (s.idx.toNat + k.val) := by
  rw [State.loaded, State.advance_reg, State.reg_loadRegs, if_pos hk, State.base]

theorem State.loaded_reg_of_gt (s : State) {x k : Reg} (hk : x < k) : (s.loaded x).reg k = s.reg k := by
  rw [State.loaded, State.advance_reg, State.reg_loadRegs, if_neg hk.not_ge]

theorem State.changesOnly_loaded (s : State) (x : Reg) : ChangesOnly [.regs, .pc] s (s.loaded x) := by
  simp [ChangesOnly, State.loaded]

/-! ### Stored, then loaded back -/

/-- Where I and the memory are as Fx55 left them, Fx65 loads the registers that were stored. -/
theorem State.loaded_reg_of_stored {s q : State} {x k : Reg} (hidx : q.idx = s.idx)
    (hmem : ∀ a, q.byteAt a = (s.stored x).byteAt a) (hk : k ≤ x) : (q.loaded x).reg k = s.reg k := by
  rw [q.loaded_reg_of_le hk, hidx, hmem, s.stored_byteAt hk]

theorem State.stored_loaded_reg (s : State) (x k : Reg) : ((s.stored x).loaded x).reg k = s.reg k := by
  rcases le_or_gt k x with hk | hk
  · exact State.loaded_reg_of_stored (s.stored_idx x) (fun _ => rfl) hk
  · rw [(s.stored x).loaded_reg_of_gt hk, s.stored_reg]

theorem State.changesOnly_stored_loaded (s : State) (x : Reg) :
    ChangesOnly [.mem, .pc] s ((s.stored x).loaded x) := by
  simp only [ChangesOnly, State.stored_loaded_reg]
  simp [State.stored, State.loaded]

end Sys2Proof.Machine
end

section
/-! The obligations of the index register and memory transfer (43_index_and_memory.md), each settled by the lemmas
above. -/

namespace Sys2Proof.Proofs

open Sys2Proof.Machine Sys2Proof.Claims

/-- Settles O30: the store writes the three digits, in order, and nothing else. -/
theorem decimalDigitsAreStored : Obligations.DecimalDigitsAreStored := by
  unfold Obligations.DecimalDigitsAreStored
  refine ⟨rowDecodes_XSUB .ldB fun _ => ⟨rfl, rfl⟩, fun s x => ⟨fun hin => ?_, fun hout => ?_⟩⟩
  · have hdigit := s.toNat_byteAt_storeBytes_decimalDigits s.base (s.reg x)
    refine ⟨_, withRange_of_ok _ _ _ _ _ (.inr hin), ?_⟩
    simp only [State.advance_byteAt]
    exact ⟨hdigit 0, hdigit 1, hdigit 2, fun a ha => s.byteAt_storeBytes_of_out _ _ a ha, by simp,
      s.changesOnly_storeBytes_advance _ _⟩
  · exact raises_of_withRange_out rfl (by decide) (by omega)

/-- Settles O31: the bytes stored are V[0] to V[x]. -/
theorem registersAreStoredAtI : Obligations.RegistersAreStoredAtI := by
  unfold Obligations.RegistersAreStoredAtI
  refine ⟨rowDecodes_XSUB .stRegs fun _ => ⟨rfl, rfl⟩, fun s x => ⟨fun hin => ?_, fun hout => ?_⟩⟩
  · exact ⟨_, exec_stRegs_of_inside hin, fun _ => s.stored_byteAt, fun _ => s.stored_byteAt_of_out x,
      by simp [State.stored], s.changesOnly_storeBytes_advance _ _⟩
  · exact raises_of_withRange_out rfl (Nat.succ_pos _) (by omega)

/-- Settles O32: the transfer writes the registers up to x. -/
theorem registersAreLoadedFromI : Obligations.RegistersAreLoadedFromI := by
  unfold Obligations.RegistersAreLoadedFromI
  refine ⟨rowDecodes_XSUB .ldRegs fun _ => ⟨rfl, rfl⟩, fun s x => ⟨fun hin => ?_, fun hout => ?_⟩⟩
  · exact ⟨_, exec_ldRegs_of_inside hin, fun _ => s.loaded_reg_of_le, fun _ => s.loaded_reg_of_gt,
      by simp [State.loaded], s.changesOnly_loaded x⟩
  · exact raises_of_withRange_out rfl (Nat.succ_pos _) (by omega)

/-- Settles O33: Fx65 reads I and the bytes at I, where Fx55 has stored the registers; the load keeps memory. -/
theorem storeThenLoadGivesTheRegistersBack : Obligations.StoreThenLoadGivesTheRegistersBack := by
  unfold Obligations.StoreThenLoadGivesTheRegistersBack
  intro s x hin
  have hidx : (s.stored x).idx = s.idx := s.stored_idx x
  refine ⟨_, (s.stored x).loaded x, exec_stRegs_of_inside hin, exec_ldRegs_of_inside (by rwa [hidx]),
    s.changesOnly_stored_loaded x, fun k hk => ?_, fun a ha => ?_, fun q hq hmem => ?_⟩
  · rw [State.loaded_byteAt, s.stored_byteAt hk]
  · rw [State.loaded_byteAt, s.stored_byteAt_of_out x ha]
  · have hqidx : q.idx = s.idx := hq.trans hidx
    exact ⟨_, exec_ldRegs_of_inside (by rwa [hqidx]), fun _ => State.loaded_reg_of_stored hqidx hmem⟩

/-- Settles O29: each writes I alone. -/
theorem indexIsLoadedAddedToOrPointedAtAGlyph : Obligations.IndexIsLoadedAddedToOrPointedAtAGlyph := by
  unfold Obligations.IndexIsLoadedAddedToOrPointedAtAGlyph
  exact ⟨rowDecodes_NNN .ldI fun _ => ⟨rfl, rfl⟩, rowDecodes_XSUB .addI fun _ => ⟨rfl, rfl⟩,
    rowDecodes_XSUB .ldF fun _ => ⟨rfl, rfl⟩, fun s x nnn => ⟨writesIndex_of_setIdx rfl (toNat_zext16 nnn),
      writesIndex_of_setIdx rfl (toNat_add_byteToWord s.idx (s.reg x)),
      writesIndex_of_setIdx rfl (toNat_glyphAddr s.cfg (s.reg x))⟩⟩

end Sys2Proof.Proofs
end

section
/-! SUPPORT. The keypad and the timers (44_keys_and_timers.md): the key a skip tests, the two ends of Fx0A, and the step
of a machine whose word at pc is Fx0A. -/

namespace Sys2Proof.Machine

open Sys2Proof.Claims

/-! ### The key skips (R110, R111) -/

theorem State.keyAt_of_index {s : State} {x k : Reg} (h : (s.reg x).toNat = k.val) : s.keyAt x = some (s.key k) := by
  obtain ⟨n, hn⟩ := k
  subst h
  exact s.keyAt_of_lt x hn

theorem skips_of_skipIf_bool {i : Instr} {s : State} {b : Bool} (he : exec i s = .next (s.skipIf b)) : Skips i s b :=
  Bool.decide_eq_true (b := b) ▸ skips_of_skipIf he Iff.rfl

theorem exec_skp_of_key {s : State} {x k : Reg} (h : (s.reg x).toNat = k.val) :
    exec (.skp x) s = .next (s.skipIf (s.key k)) := by
  rw [exec, execSkp, State.keyAt_of_index h]

theorem exec_sknp_of_key {s : State} {x k : Reg} (h : (s.reg x).toNat = k.val) :
    exec (.sknp x) s = .next (s.skipIf !s.key k) := by
  rw [exec, execSknp, State.keyAt_of_index h]

theorem raises_skp_of_ge {s : State} {x : Reg} (h : 16 ≤ (s.reg x).toNat) :
    Raises (.skp x) s .keyIndexOutOfRange (some (s.reg x).toNat) :=
  ⟨_, by rw [exec, execSkp, s.keyAt_of_ge x h], rfl, s.changesOnly_raise _ _ _⟩

theorem raises_sknp_of_ge {s : State} {x : Reg} (h : 16 ≤ (s.reg x).toNat) :
    Raises (.sknp x) s .keyIndexOutOfRange (some (s.reg x).toNat) :=
  ⟨_, by rw [exec, execSknp, s.keyAt_of_ge x h], rfl, s.changesOnly_raise _ _ _⟩

/-! ### The two ends of Fx0A (R113) -/

/-- The state after Fx0A has stored the key k. -/
def State.tookKey (s : State) (x k : Reg) : State := (s.countDraw.setReg x (BitVec.ofNat 8 k.val)).advance

theorem exec_ldVk_of_released {s : State} (x : Reg) (h : ∀ k, s.key k = false) : exec (.ldVk x) s = .next s := by
  rcases execLdVk_cases x s with ⟨-, hs⟩ | ⟨k, hk, -⟩
  · exact hs
  · simp [h k] at hk

theorem exec_ldVk_of_pressed {s : State} {k₀ : Reg} (x : Reg) (h : s.key k₀ = true) :
    ∃ k, s.key k = true ∧ exec (.ldVk x) s = .next (s.tookKey x k) := by
  rcases execLdVk_cases x s with ⟨hnone, -⟩ | hs
  · simp [hnone k₀] at h
  · exact hs

@[simp] theorem State.tookKey_pc (s : State) (x k : Reg) : (s.tookKey x k).pc = s.pc + 2 := rfl

@[simp] theorem State.tookKey_halt (s : State) (x k : Reg) : (s.tookKey x k).halt = s.halt := rfl

theorem State.toNat_tookKey_reg (s : State) (x k : Reg) : ((s.tookKey x k).reg x).toNat = k.val := by
  have hk : k.val < 256 := k.isLt.trans (by decide)
  simp [State.tookKey, hk]

theorem State.tookKey_reg_of_ne (s : State) {x j : Reg} (k : Reg) (h : j ≠ x) : (s.tookKey x k).reg j = s.reg j := by
  simp [State.tookKey, h]

theorem State.changesOnly_tookKey (s : State) (x k : Reg) : ChangesOnly [.regs, .pc, .draws] s (s.tookKey x k) := by
  simp [ChangesOnly, State.tookKey]

/-! ### The step on Fx0A, as the host sees it (R69, R116) -/

section AtKeyWait

variable {s : State} {x : Reg}

theorem stepTransaction_ldVk_of_released (hfetch : CanFetch s) (hd : decode (wordAt s s.pc.toNat) = .known (.ldVk x))
    (h : ∀ k, s.key k = false) : s.stepTransaction = (s, .waiting) := by
  obtain ⟨hrun, heven, hlow⟩ := hfetch
  have hw : s.waiting := ⟨hrun, ⟨_, x, State.fetch_eq_wordAt heven hlow, hd⟩, h⟩
  rw [stepTransaction_of_runs_on hw.step_eq hrun, if_pos (s.isWaiting_iff.mpr hw)]

theorem stepTransaction_ldVk_of_pressed {k₀ : Reg} (hfetch : CanFetch s)
    (hd : decode (wordAt s s.pc.toNat) = .known (.ldVk x)) (h : s.key k₀ = true) :
    ∃ k, s.key k = true ∧ s.stepTransaction = (s.tookKey x k, .ok) := by
  obtain ⟨hrun, heven, hlow⟩ := hfetch
  obtain ⟨k, hk, he⟩ := exec_ldVk_of_pressed x h
  have hs : step s = .next (s.tookKey x k) := (step_of_fetch_known hrun (State.fetch_eq_wordAt heven hlow) hd).trans he
  have hnot : ¬ s.waiting := fun ⟨_, _, hnone⟩ => by simp [hnone k] at hk
  exact ⟨k, hk, by rw [stepTransaction_of_runs_on hs hrun, if_neg (mt s.isWaiting_iff.mp hnot)]⟩

end AtKeyWait

/-- A transaction that leaves the state as it is leaves it so any number of times. -/
theorem runSchedule_replicate {tr : Transaction} {s : State} (h : (transact tr s).1 = s) (n : Nat) :
    runSchedule (List.replicate n tr) s = s := by
  induction n with
  | zero => rfl
  | succ n ih => rw [List.replicate_succ, runSchedule, h, ih]

/-! ### The host's key (R134) -/

/-- The state with K[k] <- b. -/
def State.withKey (s : State) (k : Reg) (b : Bool) : State := { s with keys := s.keys.set k.val b }

theorem transact_setKey (s : State) (k : Reg) (b : Bool) : transact (.setKey k.val b) s = (s.withKey k b, .nothing) :=
  dif_pos k.isLt

theorem State.withKey_key (s : State) (k j : Reg) (b : Bool) :
    (s.withKey k b).key j = if j = k then b else s.key j := by
  simp only [State.key, State.withKey, Vector.getElem_set, Fin.ext_iff, eq_comm]

/-- In a keypad with every key released, the key pressed is the only one. -/
theorem State.withKey_pressed {s : State} (h : ∀ k, s.key k = false) {k j : Reg} (hj : (s.withKey k true).key j = true) :
    j = k := by
  by_contra hne
  simp [State.withKey_key, hne, h j] at hj

end Sys2Proof.Machine
end

section
/-! The obligations of the keypad and the timers (44_keys_and_timers.md), each settled by the lemmas above. -/

namespace Sys2Proof.Proofs

open Sys2Proof.Machine Sys2Proof.Claims

/-- Settles O37: Fx0A has two ends, and the keypad says which. -/
theorem keyWaitStoresAPressedKey : Obligations.KeyWaitStoresAPressedKey := by
  unfold Obligations.KeyWaitStoresAPressedKey
  refine ⟨rowDecodes_XSUB .ldVk fun _ => ⟨rfl, rfl⟩, fun s x => ⟨exec_ldVk_of_released x, fun k₀ h => ?_,
    fun hfetch hd => ⟨stepTransaction_ldVk_of_released hfetch hd, fun k₀ h => ?_⟩⟩⟩
  · obtain ⟨k, hk, he⟩ := exec_ldVk_of_pressed x h
    exact ⟨k, _, he, hk, s.toNat_tookKey_reg x k, fun _ => s.tookKey_reg_of_ne k, rfl, s.changesOnly_tookKey x k⟩
  · obtain ⟨k, -, hs⟩ := stepTransaction_ldVk_of_pressed hfetch hd h
    exact congrArg Prod.snd hs

/-- Settles O38: the wait keeps the state, so it keeps itself; after set_key the machine still fetches Fx0A, and one key
alone is pressed. -/
theorem waitHoldsUntilAKeyIsPressed : Obligations.WaitHoldsUntilAKeyIsPressed := by
  unfold Obligations.WaitHoldsUntilAKeyIsPressed
  intro s x hfetch hd hkeys
  have hwait : transact .step s = (s, .waiting) := stepTransaction_ldVk_of_released hfetch hd hkeys
  refine ⟨hwait, runSchedule_replicate (congrArg Prod.fst hwait), fun k => ?_, rfl⟩
  have hk : (s.withKey k true).key k = true := by simp [State.withKey_key]
  obtain ⟨j, hj, hs⟩ := stepTransaction_ldVk_of_pressed (s := s.withKey k true) hfetch hd hk
  obtain rfl : j = k := State.withKey_pressed hkeys hj
  exact ⟨_, _, transact_setKey s j true, hs, State.toNat_tookKey_reg _ x j, rfl⟩

/-- Settles O35: the index is a key's below 16, and no key's from 16 on. -/
theorem keySkipsTestTheKey : Obligations.KeySkipsTestTheKey := by
  unfold Obligations.KeySkipsTestTheKey
  exact ⟨rowDecodes_XSUB .skp fun _ => ⟨rfl, rfl⟩, rowDecodes_XSUB .sknp fun _ => ⟨rfl, rfl⟩, fun s x =>
    ⟨fun k hk => ⟨skips_of_skipIf_bool (exec_skp_of_key hk), skips_of_skipIf_bool (exec_sknp_of_key hk)⟩,
      fun h => ⟨raises_skp_of_ge h, raises_sknp_of_ge h⟩⟩⟩

/-- Settles O36: Fx07 writes V[x] alone, Fx15 and Fx18 one timer alone. -/
theorem timersAreReadAndSet : Obligations.TimersAreReadAndSet := by
  unfold Obligations.TimersAreReadAndSet
  refine ⟨rowDecodes_XSUB .ldVdt fun _ => ⟨rfl, rfl⟩, rowDecodes_XSUB .ldDtv fun _ => ⟨rfl, rfl⟩,
    rowDecodes_XSUB .ldStv fun _ => ⟨rfl, rfl⟩, fun s x => ⟨writesRegister_of_setReg rfl rfl, ?_, ?_⟩⟩
  · exact ⟨_, rfl, rfl, rfl, by simp [ChangesOnly]⟩
  · exact ⟨_, rfl, rfl, rfl, by simp [ChangesOnly]⟩

end Sys2Proof.Proofs
end

section
/-! SUPPORT. Faults and the host's transactions (60_exceptions.md): the fault an instruction takes (R122), what `tick()`
and `set_key` do (R130, R134, R135), and every way a transaction can end. -/

namespace Sys2Proof.Machine

open Sys2Proof.Claims

/-! ### The first fault that applies (R117, R122) -/

section Checks

variable {s t : State} {r : Result} {p : Prop} [Decidable p]

/-- A check that fails halts the machine with its fault. -/
theorem halts_of_check {k : FaultKind} {w : Option Word} {a : Option Nat} (he : r = .next (s.raise k w a)) (hp : p) :
    ∃ t, r = .next t ∧ t.halt = if p then some ⟨k, s.pc, w, a⟩ else none :=
  ⟨_, he, (if_pos hp).symm⟩

theorem runs_on_of_check {f : FaultRecord} (he : r = .next t) (ht : t.halt = none) (hp : ¬ p) :
    ∃ t, r = .next t ∧ t.halt = if p then some f else none :=
  ⟨_, he, ht.trans (if_neg hp).symm⟩

end Checks

/-- R122 item 5: an instruction halts a running machine with its own fault alone. -/
theorem exec_halts_with_ownFault {s : State} (hrun : s.halt = none) (i : Instr) :
    ∃ t, exec i s = .next t ∧ t.halt = ownFault s (encode i) i := by
  cases i
  case ret =>
    rcases execRet_cases s with ⟨h, he⟩ | ⟨h, he⟩ <;>
      [exact halts_of_check he h; exact runs_on_of_check he hrun h.ne']
  case call nnn =>
    rcases execCall_cases nnn s with ⟨h, he⟩ | ⟨h, he⟩ <;>
      [exact halts_of_check he h; exact runs_on_of_check he hrun h.ne]
  case skp x =>
    rcases execSkp_cases x s with ⟨h, he⟩ | ⟨h, he⟩ <;>
      [exact halts_of_check he h; exact runs_on_of_check he hrun (Nat.not_le.mpr h)]
  case sknp x =>
    rcases execSknp_cases x s with ⟨h, he⟩ | ⟨h, he⟩ <;>
      [exact halts_of_check he h; exact runs_on_of_check he hrun (Nat.not_le.mpr h)]
  case drw x y n =>
    rcases execDrw_cases x y n s with ⟨h, he⟩ | ⟨h, he⟩
    · exact runs_on_of_check he hrun fun ⟨hn, hout⟩ => h.elim hn.ne' (Nat.not_le.mpr hout)
    · exact halts_of_check he h
  case ldB x =>
    rcases execLdB_cases x s with ⟨h, he⟩ | ⟨h, he⟩
    · exact runs_on_of_check he (by simp [hrun]) (Nat.not_le.mpr h)
    · exact halts_of_check he (Nat.le_of_lt_succ h)
  case stRegs x =>
    rcases execStRegs_cases x s with ⟨h, he⟩ | ⟨h, he⟩
    · exact runs_on_of_check he (by simp [hrun]) (Nat.not_le.mpr h)
    · exact halts_of_check he h
  case ldRegs x =>
    rcases execLdRegs_cases x s with ⟨h, he⟩ | ⟨h, he⟩
    · exact runs_on_of_check he hrun (Nat.not_le.mpr h)
    · exact halts_of_check he h
  case ldVk x =>
    rcases execLdVk_cases x s with ⟨-, he⟩ | ⟨k, -, he⟩ <;> exact ⟨_, he, hrun⟩
  all_goals exact ⟨_, rfl, by simpa [ownFault] using hrun⟩

section FirstFault

variable {s : State}

theorem firstFault_of_odd (h : s.pc.toNat % 2 = 1) : firstFault s = some ⟨.misalignedFetch, s.pc, none, none⟩ :=
  if_pos h

theorem firstFault_of_high (heven : s.pc.toNat % 2 = 0) (h : 0x1000 ≤ s.pc.toNat) :
    firstFault s = some ⟨.addressOutOfRange, s.pc, none, some s.pc.toNat⟩ := by
  rw [firstFault, if_neg (by omega), if_pos h]

theorem firstFault_of_unknown (heven : s.pc.toNat % 2 = 0) (hlow : s.pc.toNat < 0x1000)
    (hd : decode (wordAt s s.pc.toNat) = .unknown) :
    firstFault s = some ⟨.unknownOpcode, s.pc, some (wordAt s s.pc.toNat), none⟩ := by
  rw [firstFault, if_neg (by omega), if_neg (by omega), hd]

theorem firstFault_of_known {i : Instr} (heven : s.pc.toNat % 2 = 0) (hlow : s.pc.toNat < 0x1000)
    (hd : decode (wordAt s s.pc.toNat) = .known i) : firstFault s = ownFault s (wordAt s s.pc.toNat) i := by
  rw [firstFault, if_neg (by omega), if_neg (by omega), hd]

/-- R122: a running machine's step halts it exactly with the first fault that applies. -/
theorem step_halts_with_firstFault (hrun : s.halt = none) : ∃ t, step s = .next t ∧ t.halt = firstFault s := by
  by_cases hodd : s.pc.toNat % 2 = 1
  · exact ⟨_, step_of_fetch_error hrun (s.fetch_of_odd hodd), (firstFault_of_odd hodd).symm⟩
  have heven : s.pc.toNat % 2 = 0 := by omega
  by_cases hhigh : 0x1000 ≤ s.pc.toNat
  · exact ⟨_, step_of_fetch_error hrun (s.fetch_of_high heven hhigh), (firstFault_of_high heven hhigh).symm⟩
  have hlow : s.pc.toNat < 0x1000 := by omega
  have hf := State.fetch_eq_wordAt heven hlow
  cases hd : decode (wordAt s s.pc.toNat) with
  | unknown => exact ⟨_, step_of_fetch_unknown hrun hf hd, (firstFault_of_unknown heven hlow hd).symm⟩
  | known i =>
    rw [step_of_fetch_known hrun hf hd, firstFault_of_known heven hlow hd, ← ((decode_eq_known_iff _ i).mp hd).2]
    exact exec_halts_with_ownFault hrun i

end FirstFault

/-! ### tick (R130) -/

theorem toNat_countDown (t : Byte) : (countDown t).toNat = t.toNat - 1 := by
  rw [countDown]
  split
  · rw [BitVec.toNat_sub_of_le (BitVec.le_def.mpr ‹_›)]
    rfl
  · omega

/-- The state after a tick of timers that are not frozen. -/
def State.counted (s : State) : State := { s with dt := countDown s.dt, st := countDown s.st }

theorem State.tick_of_frozen {s : State} (hhalt : s.halt ≠ none) (hcfg : s.cfg.tickWhenHalted = .ignore) :
    s.tick = (s, .beep false) := by
  simp [State.tick, State.timersFrozen, Option.isSome_iff_ne_none, hhalt, hcfg]

theorem State.tick_of_counting {s : State} (h : s.halt = none ∨ s.cfg.tickWhenHalted = .decrement) :
    s.tick = (s.counted, .beep (decide (s.st.toNat = 1))) := by
  have hbeep : (s.st == 1) = decide (s.st.toNat = 1) :=
    Bool.eq_iff_iff.mpr ((beq_eq_true_iff_toNat s.st 1).trans decide_eq_true_iff.symm)
  have hgo : s.timersFrozen = false := by rcases h with h | h <;> simp [State.timersFrozen, h]
  rw [State.tick, hgo, hbeep]
  rfl

theorem State.changesOnly_counted (s : State) : ChangesOnly [.dt, .st] s s.counted := by
  simp [ChangesOnly, State.counted, State.reg, State.stackAt, State.pixel, State.key, State.byteAt]

/-! ### set_key (R134, R135) -/

theorem transact_setKey_of_ge {s : State} {index : Nat} (p : Bool) (h : 16 ≤ index) :
    transact (.setKey index p) s = (s, .refused) :=
  dif_neg (Nat.not_lt.mpr h)

theorem State.changesOnly_withKey (s : State) (k : Reg) (b : Bool) : ChangesOnly [.keys] s (s.withKey k b) := by
  simp [ChangesOnly, State.withKey, State.reg, State.stackAt, State.pixel, State.byteAt]

/-! ### Every transaction -/

/-- Every way a transaction can end: the state after it and the response. -/
inductive Transacts (s : State) : Transaction → State → Response → Prop where
  | reset : Transacts s .reset s.doReset .nothing
  | tooLong (bytes : List Byte) (h : 3584 < bytes.length) : Transacts s (.load bytes) s .loadError
  | loads (bytes : List Byte) (h : bytes.length ≤ 3584) : Transacts s (.load bytes) (s.storeBytes 0x200 bytes) .ok
  | halted (r : FaultRecord) (h : s.halt = some r) : Transacts s .step s (.fault r)
  | raised (r : FaultRecord) (hrun : s.halt = none) (h : firstFault s = some r) :
      Transacts s .step { s with halt := some r } (.fault r)
  | waits (h : s.waiting) : Transacts s .step s .waiting
  | executes (i : Instr) (t : State) (hfetch : CanFetch s) (hd : decode (wordAt s s.pc.toNat) = .known i)
      (h : Executes s i t) (ht : t.halt = none) : Transacts s .step t .ok
  | frozen (hhalt : s.halt ≠ none) (hcfg : s.cfg.tickWhenHalted = .ignore) : Transacts s .tick s (.beep false)
  | counts (h : s.halt = none ∨ s.cfg.tickWhenHalted = .decrement) :
      Transacts s .tick s.counted (.beep (decide (s.st.toNat = 1)))
  | setsKey (k : Reg) (p : Bool) : Transacts s (.setKey k.val p) (s.withKey k p) .nothing
  | refusesKey (index : Nat) (p : Bool) (h : 16 ≤ index) : Transacts s (.setKey index p) s .refused
  | display : Transacts s .display s (.pixels s.displayView)
  | consumeRedrawFlag : Transacts s .consumeRedrawFlag { s with redraw := false } (.redrawFlag s.redraw)

/-- A step that raises nothing executed the instruction at pc. -/
theorem step_executes_of_runs_on {s t : State} (hs : step s = .next t) (ht : t.halt = none) :
    ∃ i, CanFetch s ∧ decode (wordAt s s.pc.toNat) = .known i ∧ Executes s i t := by
  rcases step_cases s with ⟨r, -, h⟩ | ⟨-, k, a, -, h⟩ | ⟨-, w, -, -, h⟩ | ⟨hrun, w, i, hf, hd, h⟩
  · cases h.symm.trans hs
  · cases h.symm.trans hs; cases ht
  · cases h.symm.trans hs; cases ht
  · obtain ⟨heven, hlow⟩ := State.fetch_eq_ok hf
    cases (State.fetch_eq_wordAt heven hlow).symm.trans hf
    exact ⟨i, ⟨hrun, heven, hlow⟩, hd, exec_executes (h.symm.trans hs)⟩

theorem stepTransaction_transacts (s : State) : Transacts s .step s.stepTransaction.1 s.stepTransaction.2 := by
  cases hh : s.halt with
  | some r => rw [stepTransaction_of_halted hh]; exact .halted r hh
  | none =>
    obtain ⟨t, hs, hfirst⟩ := step_halts_with_firstFault hh
    cases ht : t.halt with
    | some r =>
      obtain ⟨rfl, -⟩ := step_halts hs ht
      rw [stepTransaction_of_halts hs ht]
      exact .raised r hh hfirst.symm
    | none =>
      rw [stepTransaction_of_runs_on hs ht]
      split
      · have hw : s.waiting := s.isWaiting_iff.mp ‹_›
        cases hw.step_eq.symm.trans hs
        exact .waits hw
      · obtain ⟨i, hfetch, hd, hx⟩ := step_executes_of_runs_on hs ht
        exact .executes i t hfetch hd hx ht

/-- The inversion of `transact`: proofs about a transaction take `cases` of this. -/
theorem transact_transacts (tr : Transaction) (s : State) : Transacts s tr (transact tr s).1 (transact tr s).2 := by
  cases tr with
  | reset => exact .reset
  | load bytes =>
    rw [transact, State.load]
    split
    · exact .tooLong bytes ‹_›
    · exact .loads bytes (Nat.not_lt.mp ‹_›)
  | step => exact stepTransaction_transacts s
  | tick =>
    rw [transact]
    by_cases h : s.halt = none ∨ s.cfg.tickWhenHalted = .decrement
    · rw [State.tick_of_counting h]
      exact .counts h
    · obtain ⟨hhalt, hcfg⟩ := not_or.mp h
      have hcfg : s.cfg.tickWhenHalted = .ignore := by cases hc : s.cfg.tickWhenHalted <;> [exact absurd hc hcfg; rfl]
      rw [State.tick_of_frozen hhalt hcfg]
      exact .frozen hhalt hcfg
  | setKey index p =>
    by_cases h : index < 16
    · rw [transact_setKey s ⟨index, h⟩ p]
      exact .setsKey ⟨index, h⟩ p
    · rw [transact_setKey_of_ge p (Nat.not_lt.mp h)]
      exact .refusesKey index p (Nat.not_lt.mp h)
  | display => exact .display
  | consumeRedrawFlag => exact .consumeRedrawFlag

section Transacts

variable {s t : State} {tr : Transaction} {o : Response}

/-- R123: only reset clears the halt. -/
theorem Transacts.halt_of_halted (h : Transacts s tr t o) {r : FaultRecord} (hs : s.halt = some r) (htr : tr ≠ .reset) :
    t.halt = some r := by
  cases h
  case reset => exact absurd rfl htr
  case raised _ hrun _ => cases hrun.symm.trans hs
  case executes i hfetch _ _ _ =>
    obtain ⟨hrun, -, -⟩ := hfetch
    cases hrun.symm.trans hs
  case loads bytes _ => rw [State.storeBytes_halt, hs]
  all_goals exact hs

/-- R131: ST can be 1 and then 0 over a tick only if the timers counted. -/
theorem Transacts.beeps_iff (h : Transacts s tr t o) :
    o = .beep true ↔ tr = .tick ∧ s.st.toNat = 1 ∧ t.st.toNat = 0 := by
  cases h
  case frozen => exact ⟨nofun, fun ⟨_, hone, hzero⟩ => by omega⟩
  case counts =>
    have hst : s.counted.st.toNat = s.st.toNat - 1 := toNat_countDown s.st
    simp only [Response.beep.injEq, decide_eq_true_eq, hst, true_and]
    omega
  all_goals simp

/-- R134: a key changes by reset or by the host's key event. -/
theorem Transacts.writer_of_key_ne (h : Transacts s tr t o) {k : Reg} (hk : t.key k ≠ s.key k) :
    tr = .reset ∨ tr = .setKey k.val !s.key k := by
  cases h
  case reset => exact .inl rfl
  case setsKey j p =>
    obtain rfl : k = j := by by_contra hne; simp [State.withKey_key, hne] at hk
    have hp : p ≠ s.key k := by simpa [State.withKey_key] using hk
    exact .inr (by rw [Bool.eq_not.mpr hp])
  case loads bytes _ => simp at hk
  case executes i _ _ hx _ => exact absurd (by rw [State.key, hx.keys_eq]; rfl) hk
  all_goals exact absurd rfl hk

/-- R137: between two reads of the redraw flag, only 00E0 and Dxyn can set it. -/
theorem Transacts.redraw_stays_clear (h : Transacts s tr t o) (hs : s.redraw = false)
    (hstep : tr = .step → ∀ i, decode (wordAt s s.pc.toNat) = .known i → i ≠ .cls ∧ ∀ x y n, i ≠ .drw x y n) :
    t.redraw = false := by
  cases h
  case executes i _ hd hx _ =>
    obtain ⟨hcls, hdrw⟩ := hstep rfl i hd
    exact (hx.display_of_ne hcls hdrw).1.trans hs
  case loads bytes _ => rw [State.storeBytes_redraw, hs]
  case reset | consumeRedrawFlag => rfl
  all_goals exact hs

end Transacts

/-! ### The views of the display and of the redraw flag (R136, R137) -/

/-- Row r of the view begins at byte 64 r. -/
theorem State.viewByte_rowMajor (s : State) (c : Fin 64) (r : Fin 32) :
    s.viewByte (r.val * 64 + c.val) = if s.pixel c r then 1 else 0 := by
  have hc : (r.val * 64 + c.val) % 64 = c.val := by omega
  have hr : (r.val * 64 + c.val) / 64 % 32 = r.val := by omega
  simp only [State.viewByte, hc, hr]

theorem State.getElem?_displayView (s : State) (c : Fin 64) (r : Fin 32) :
    s.displayView[r.val * 64 + c.val]? = some (if s.pixel c r then 1 else 0) := by
  have hk : r.val * 64 + c.val < 2048 := by omega
  rw [State.displayView, List.getElem?_map, List.getElem?_range hk, Option.map_some, s.viewByte_rowMajor]

theorem State.changesOnly_clearRedraw (s : State) : ChangesOnly [.redraw] s { s with redraw := false } := by
  simp [ChangesOnly, State.reg, State.stackAt, State.pixel, State.key, State.byteAt]

end Sys2Proof.Machine
end

section
/-! The obligations of the faults and of the host's transactions (60_exceptions.md), each settled by the lemmas
above. -/

namespace Sys2Proof.Proofs

open Sys2Proof.Machine Sys2Proof.Claims

/-- Settles O9: a step of a running machine halts it through the one trap entry. -/
theorem faultingStepIsPrecise : Obligations.FaultingStepIsPrecise := by
  unfold Obligations.FaultingStepIsPrecise
  exact fun _ _ _ _ hs hr => step_halts hs hr

/-- Settles O10: the fetch's checks, the decoder and the instruction's own check come in the order of R122. -/
theorem stepRaisesTheFirstFaultThatApplies : Obligations.StepRaisesTheFirstFaultThatApplies := by
  unfold Obligations.StepRaisesTheFirstFaultThatApplies
  exact fun s => ⟨fun r hr => by rw [step, hr], step_halts_with_firstFault⟩

/-- Settles O11: a halted machine's step answers its record, and no transaction but reset writes the halt status. -/
theorem haltedMachineStaysHaltedUntilReset : Obligations.HaltedMachineStaysHaltedUntilReset := by
  unfold Obligations.HaltedMachineStaysHaltedUntilReset
  refine fun s r hr => ⟨stepTransaction_of_halted hr, rfl, fun tr htr => (transact_transacts tr s).halt_of_halted hr htr,
    fun hcfg => ?_, fun k p => ?_, rfl, rfl⟩
  · rw [transact, State.tick_of_counting (.inr hcfg)]
    exact toNat_countDown s.dt
  · rw [transact_setKey, State.withKey_key, if_pos rfl]

/-- Settles O51: no response but tick's is a beep, and frozen timers do not fall. -/
theorem beepIsTheFallOfTheSoundTimer : Obligations.BeepIsTheFallOfTheSoundTimer := by
  unfold Obligations.BeepIsTheFallOfTheSoundTimer
  refine fun tr s => ⟨(transact_transacts tr s).beeps_iff, fun hcfg hst => ?_⟩
  rw [transact, State.tick_of_counting (.inr hcfg), hst]
  exact ⟨rfl, (toNat_countDown s.st).trans (by rw [hst])⟩

/-- Settles O52: the keypad has two writers, and set_key writes the key it names. -/
theorem setKeyWritesOneKeyOrIsRefused : Obligations.SetKeyWritesOneKeyOrIsRefused := by
  unfold Obligations.SetKeyWritesOneKeyOrIsRefused
  refine fun s index p => ⟨?_, transact_setKey_of_ge p, fun tr k hk => (transact_transacts tr s).writer_of_key_ne hk⟩
  rintro k rfl
  refine ⟨_, transact_setKey s k p, ?_, fun j hj => ?_, s.changesOnly_withKey k p⟩
  · rw [State.withKey_key, if_pos rfl]
  · rw [State.withKey_key, if_neg hj]

/-- Settles O54: consuming the flag clears it, and what a transaction leaves of a clear flag depends on its way of
ending. -/
theorem redrawFlagIsReadAndCleared : Obligations.RedrawFlagIsReadAndCleared := by
  unfold Obligations.RedrawFlagIsReadAndCleared
  exact fun s => ⟨_, rfl, rfl, s.changesOnly_clearRedraw, rfl,
    fun q tr hq hstep => (transact_transacts tr q).redraw_stays_clear hq hstep⟩

/-- Settles O50: a timer that is not frozen drops by 1, truncated at 0. -/
theorem tickCountsBothTimersDown : Obligations.TickCountsBothTimersDown := by
  unfold Obligations.TickCountsBothTimersDown
  refine fun s => ⟨State.tick_of_frozen, fun h => ⟨_, State.tick_of_counting h, ?_, ?_, s.changesOnly_counted⟩⟩
  · exact (toNat_countDown s.dt).trans (by split <;> omega)
  · exact (toNat_countDown s.st).trans (by split <;> omega)

/-- Settles O53: byte r * 64 + c of the view is the pixel at column c and row r. -/
theorem displayViewIsRowMajor : Obligations.DisplayViewIsRowMajor := by
  unfold Obligations.DisplayViewIsRowMajor
  exact fun s => ⟨_, rfl, by rw [State.displayView, List.length_map, List.length_range], s.getElem?_displayView⟩

end Sys2Proof.Proofs
end

section
/-! SUPPORT. What `load` does (70_reset_and_hazards.md R145, R146): one equation per side of the length check, and the
frame of a store of bytes. -/

namespace Sys2Proof.Machine

open Sys2Proof.Claims

theorem State.load_of_too_long (s : State) {bytes : List Byte} (h : 3584 < bytes.length) :
    s.load bytes = (s, .loadError) :=
  if_pos h

theorem State.load_of_fits (s : State) {bytes : List Byte} (h : bytes.length ≤ 3584) :
    s.load bytes = (s.storeBytes 0x200 bytes, .ok) :=
  if_neg h.not_gt

theorem State.changesOnly_storeBytes (s : State) (base : Nat) (bs : List Byte) :
    ChangesOnly [.mem] s (s.storeBytes base bs) := by
  simp [ChangesOnly]

end Sys2Proof.Machine
end

section
/-! The obligation of `load` (70_reset_and_hazards.md), settled by the lemmas above. -/

namespace Sys2Proof.Proofs

open Sys2Proof.Machine Sys2Proof.Claims

/-- Settles O55: a program that fits is stored from 0x200 on, and a longer one is refused before any write. -/
theorem loadCopiesTheProgramOrChangesNothing : Obligations.LoadCopiesTheProgramOrChangesNothing := by
  unfold Obligations.LoadCopiesTheProgramOrChangesNothing
  refine fun s bytes => ⟨fun hlong => s.load_of_too_long hlong, fun hfits => ⟨_, s.load_of_fits hfits, ?_, ?_, ?_⟩⟩
  · exact fun k hk => s.byteAt_storeBytes_of_in 0x200 bytes k hk
  · exact fun a ha => s.byteAt_storeBytes_of_out 0x200 bytes a ha
  · exact s.changesOnly_storeBytes 0x200 bytes

end Sys2Proof.Proofs
end
